-- ==== Sys2Proof/Word.lean ====
section
/-! DEFINITION. Word: the one word type that does not depend on the configuration. Every other value is a core `BitVec` of the
exact width of its port (00_scope.md rule R5, 30_encoding.md rule R21), bit 0 the least significant. -/

namespace Sys2Proof

/-- The model-only operation tag of 30_encoding.md rule R22: two bits, carried by no wire. -/
abbrev Tag := BitVec 2

end Sys2Proof
end

