-- ==== Sys2Proof/Syntax.lean ====
section
/-! DEFINITION. Syntax: the four operations of 30_encoding.md rule R22 and the block each belongs to. -/

namespace Sys2Proof

/-- The four hardware blocks of 00_scope.md rule R1. -/
inductive Block where
  | hammingEncoder
  | syndromeCalculator
  | errorLocator
  | hammingDecoder
  deriving DecidableEq, Repr

/-- One constructor per row of the operation table (30_encoding.md rule R22). An operation has no operand
field: "The operand of each operation is the whole input port". -/
inductive Instr where
  | encode
  | syndrome
  | locate
  | decode
  deriving DecidableEq, Repr

/-- "The block has four operations, one per block" (30_encoding.md rule R22; D1). -/
def Instr.block : Instr → Block
  | .encode => .hammingEncoder
  | .syndrome => .syndromeCalculator
  | .locate => .errorLocator
  | .decode => .hammingDecoder

end Sys2Proof
end

