-- ==== Sys2Proof/WellFormed.lean ====
section
/-! DEFINITION. WellFormed: the checks the spec puts on words and integers that stand for port values. -/

namespace Sys2Proof

/-- Every operation is well formed: "The model tag `op` of rule R22 has no unused value" and no operation has an
operand field that could be ill formed (30_encoding.md rules R22, R23). -/
def Instr.wellFormed : Instr → Bool
  | .encode => true
  | .syndrome => true
  | .locate => true
  | .decode => true

/-- A number is a tag word when it fits the two bits of the tag (30_encoding.md rule R22). -/
def wellFormedTagWord (w : Nat) : Bool := decide (w < 4)

/-- A number stands for a value of a port of width `width` when it is below `2^width` (00_scope.md rule R5;
41_hamming_encoder.md rule R36 for the data port). -/
def wellFormedPortValue (width value : Nat) : Bool := decide (value < 2 ^ width)

/-- A bit position of a codeword of length `cl` (00_scope.md glossary, Position; the `k` of `FLIP`, rule R25). -/
def wellFormedPosition (cl k : Nat) : Bool := decide (k < cl)

end Sys2Proof
end

