-- ==== Sys2Proof/Decode.lean ====
section
/-! DEFINITION. Decode: the two-bit model tag to the operation it selects, and back
(30_encoding.md rule R22, opcode_table.json; the tag is carried by no wire, D12). -/

namespace Sys2Proof

/-- Why a word is no operation tag. -/
inductive DecodeReject where
  /-- The word has a bit set above the two tag bits. -/
  | notATag (w : Nat)
  deriving DecidableEq, Repr

/-- The operation a tag selects. Total: the tag "has no unused value" (30_encoding.md rule R23). -/
def decodeTag (t : Tag) : Instr :=
  if t = 0#2 then .encode
  else if t = 1#2 then .syndrome
  else if t = 2#2 then .locate
  else .decode

/-- Decoding of any number: a word with a bit above the tag is rejected by name. -/
def decodeWord (w : Nat) : Except DecodeReject Instr :=
  if wellFormedTagWord w then .ok (decodeTag (BitVec.ofNat 2 w)) else .error (.notATag w)

/-- The tag of an operation (the "op" column of 30_encoding.md rule R22). -/
def encodeInstr : Instr → Tag
  | .encode => 0#2
  | .syndrome => 1#2
  | .locate => 2#2
  | .decode => 3#2

/-- What the decoder reads from a row's word, numbered as opcode_table.json numbers it. -/
def decodeTableWord (_nbits w : Nat) : Option Instr :=
  match decodeWord w with
  | .ok i => some i
  | .error _ => none

end Sys2Proof
end

