-- ==== Sys2Proof/Machine/Bits.lean ====
section
/-! DEFINITION. Machine/Bits: the bit and pseudocode primitives of 00_scope.md rules R5 and R6. -/

namespace Sys2Proof.Machine

/-- `bit(n, i)` of 00_scope.md rule R5: `floor(n / 2^i) mod 2`. -/
def natBit (n i : Nat) : Bool := n / 2 ^ i % 2 == 1

/-- `for i in [0, n)`: the body is run for `0, 1, ..., n-1` in order (00_scope.md rule R6). -/
def loop {α : Type} : Nat → α → (Nat → α → α) → α
  | 0, init, _ => init
  | n + 1, init, body => body n (loop n init body)

/-- `1 << k` in width `w` (00_scope.md rule R6). -/
def oneHot (w k : Nat) : BitVec w := 1#w <<< k

/-- `XOR{ j in [0, n) with e(j) } 1` (00_scope.md rule R6, with the covering condition folded into `e`): true
exactly when an odd number of the `e(j)` is set. It says by counting what the blocks compute by folding. -/
def xorOver (n : Nat) (e : Nat → Bool) : Bool := (List.range n).countP e % 2 == 1

end Sys2Proof.Machine
end

