-- ==== Sys2Proof/Machine/Layout.lean ====
section
/-! DEFINITION. Machine/Layout: the derivation of the codeword layout from the data length
(40_construction.md rules R26 to R31). -/

namespace Sys2Proof.Machine

/-- Doubles `c` until it is at or above `dl`; `fuel` bounds the doublings. -/
def doubleUntil (dl : Nat) : Nat → Nat → Nat
  | 0, c => c
  | fuel + 1, c => if dl ≤ c then c else doubleUntil dl fuel (2 * c)

/-- `CL`: the smallest power of two at or above `DL` (40_construction.md rule R27; conflict C1, D4). The one
function to replace to try the other reading; every operation uses `CL` only through it. -/
def codewordLength (dl : Nat) : Nat := doubleUntil dl dl 1

/-- `PL = CL - DL` (40_construction.md rule R28). -/
def parityLength (dl : Nat) : Nat := codewordLength dl - dl

/-- `MASK = 2^DL - 1` (40_construction.md rule R29). -/
def dataMask (dl : Nat) : Nat := 2 ^ dl - 1

/-- `M = log2(CL)` (40_construction.md rule R30). -/
def indexBits (dl : Nat) : Nat := Nat.log2 (codewordLength dl)

/-- The two causes of an invalid construction (60_exceptions.md rules R53, R54); each records the offending `DL`.
Neither is a trap: the hardware is not built. -/
inductive ConstructionError where
  /-- E1, `InvalidConstruction(DL = 0)`: always refused (40_construction.md rule R26). -/
  | dataLengthZero (dl : Nat)
  /-- E2, `InvalidConstruction(PL = 0)`: refused when `GUARD_PL0 = true` (40_construction.md rule R31). -/
  | parityLengthZero (dl : Nat)
  deriving DecidableEq, Repr

/-- The spec's own code of a construction error (60_exceptions.md rule R53). -/
def ConstructionError.code : ConstructionError → String
  | .dataLengthZero _ => "E1"
  | .parityLengthZero _ => "E2"

/-- The check made at elaboration, in the order of 60_exceptions.md rule R54: first `DL = 0`, then `PL = 0`. -/
def constructionError (guardPL0 : Bool) (dl : Nat) : Option ConstructionError :=
  if dl = 0 then some (.dataLengthZero dl)
  else if guardPL0 && parityLength dl == 0 then some (.parityLengthZero dl)
  else none

end Sys2Proof.Machine
end

