-- ==== Sys2Proof/Config.lean ====
section
/-! DEFINITION. Config: what is fixed when the hardware is built (00_scope.md rule R4, 10_state.md rule R8). There is
no free value: the spec leaves no run-time behaviour open (93_implementation_defined.md part 2). -/

namespace Sys2Proof

/-- A configuration that was built: the data length and the policy `GUARD_PL0`, with the fact that the construction
check passed, so that no value of this type is a refused configuration (60_exceptions.md rule R54: "A model takes
the configuration as a value that carries a proof of validity"). -/
structure Config where
  dl : Nat
  guardPL0 : Bool
  built : Machine.constructionError guardPL0 dl = none
  deriving DecidableEq, Repr

namespace Config

/-- `CL` (40_construction.md rule R27). -/
def cl (c : Config) : Nat := Machine.codewordLength c.dl

/-- `PL` (40_construction.md rule R28). -/
def pl (c : Config) : Nat := Machine.parityLength c.dl

/-- `MASK` (40_construction.md rule R29). -/
def mask (c : Config) : Nat := Machine.dataMask c.dl

/-- `M` (40_construction.md rule R30). -/
def m (c : Config) : Nat := Machine.indexBits c.dl

end Config

/-- `CodecParameters`: the four fields of the source's only persistent entity (10_state.md rule R8). -/
structure CodecParameters where
  dataLength : Nat
  codewordLength : Nat
  parityLength : Nat
  mask : Nat
  deriving DecidableEq, Repr

/-- The `CodecParameters` of a configuration (10_state.md rule R8). -/
def Config.parameters (c : Config) : CodecParameters :=
  { dataLength := c.dl, codewordLength := c.cl, parityLength := c.pl, mask := c.mask }

/-- The default of `GUARD_PL0` (00_scope.md rule R4; 40_construction.md rule R31; D8). -/
def Config.defaultGuard : Bool := true

/-- The reference configuration `DL = 11` (00_scope.md rule R4; D18). -/
def Config.reference : Config := { dl := 11, guardPL0 := Config.defaultGuard, built := by decide }

end Sys2Proof
end

