-- ==== Sys2Proof/Machine/Encoder.lean ====
section
/-! DEFINITION. Machine/Encoder: the function of hamming_encoder (41_hamming_encoder.md rules R33, R34). -/

namespace Sys2Proof.Machine

/-- `contrib(i)` (41_hamming_encoder.md rule R33; conflict C2, D5): bit `i`, and bit `DL + p` for each parity index `p`
whose bit is set in `i`. -/
def contrib (c : Config) (i : Nat) : BitVec c.cl :=
  loop c.pl (oneHot c.cl i) fun p acc => if natBit i p then acc ||| oneHot c.cl (c.dl + p) else acc

/-- `ENCODE` (41_hamming_encoder.md rule R34): the exclusive-or of the contributions of the set data bits. -/
def hammingEncoder (c : Config) (dataIn : BitVec c.dl) : BitVec c.cl :=
  loop c.dl 0#c.cl fun i codeword => if dataIn.getLsbD i then codeword ^^^ contrib c i else codeword

end Sys2Proof.Machine
end

