-- ==== Sys2Proof/Machine/ErrorLocator.lean ====
section
/-! DEFINITION. Machine/ErrorLocator: the function of error_locator (43_error_locator.md rule R40), implemented as
written and not repaired (conflict C3, D6). -/

namespace Sys2Proof.Machine

/-- `LOCATE` (43_error_locator.md rule R40): the first `k` in `[0, CL)` with `val(syndrome_in) = 2^k`, else `none`. The
comparison is of natural numbers, and the scan range is the source's (D20). -/
def errorLocator (c : Config) (syndromeIn : BitVec c.pl) : Option Nat :=
  (List.range c.cl).find? fun k => syndromeIn.toNat == 2 ^ k

end Sys2Proof.Machine
end

