-- ==== Sys2Proof/Machine/Operands.lean ====
section
/-! DEFINITION. Machine/Operands: the formats of the values on the ports (30_encoding.md rules R17 to R21). -/

namespace Sys2Proof.Machine

/-- The data field of a codeword, bits `[DL-1:0]` (30_encoding.md rule R18). -/
def dataField (c : Config) (codeword : BitVec c.cl) : BitVec c.dl := codeword.extractLsb' 0 c.dl

/-- The parity field of a codeword, bits `[CL-1:DL]` (30_encoding.md rule R18). -/
def parityField (c : Config) (codeword : BitVec c.cl) : BitVec c.pl := codeword.extractLsb' c.dl c.pl

/-- The error position on its port, `M + 1` bits, two's complement (30_encoding.md rule R20; D10): `none` is all ones, a
position `k` is the value `k`. -/
def errorPositionPort (c : Config) : Option Nat → BitVec (c.m + 1)
  | none => BitVec.allOnes (c.m + 1)
  | some k => BitVec.ofNat (c.m + 1) k

/-- What an `error_position` port says, read by its sign bit (30_encoding.md rule R20). -/
def errorPositionOfPort (c : Config) (port : BitVec (c.m + 1)) : Option Nat :=
  if port.getLsbD c.m then none else some port.toNat

/-- The error position as the source's signed integer, with `-1` for `none` (30_encoding.md rule R20;
44_hamming_decoder.md rule R45). -/
def errorPositionInt : Option Nat → Int
  | none => -1
  | some k => (k : Int)

/-- The width of the one input port of an operation's block (30_encoding.md rule R21). -/
def inputWidth (c : Config) : Instr → Nat
  | .encode => c.dl
  | .syndrome => c.cl
  | .locate => c.pl
  | .decode => c.cl

end Sys2Proof.Machine
end

