-- ==== Sys2Proof/Machine/SyndromeCalculator.lean ====
section
/-! DEFINITION. Machine/SyndromeCalculator: the function of syndrome_calculator (42_syndrome_calculator.md rule R37). -/

namespace Sys2Proof.Machine

/-- Parity check `i`: the exclusive-or of the codeword bits whose position has bit `i` set, over the whole codeword
(42_syndrome_calculator.md rule R37, inner loop). -/
def parityCheck (c : Config) (codewordIn : BitVec c.cl) (i : Nat) : Bool :=
  loop c.cl false fun j parity => if natBit j i then Bool.xor parity (codewordIn.getLsbD j) else parity

/-- `SYNDROME` (42_syndrome_calculator.md rule R37): bit `i` is parity check `i`. -/
def syndromeCalculator (c : Config) (codewordIn : BitVec c.cl) : BitVec c.pl :=
  loop c.pl 0#c.pl fun i syndrome =>
    if parityCheck c codewordIn i then syndrome ||| oneHot c.pl i else syndrome

end Sys2Proof.Machine
end

