-- ==== Sys2Proof/Machine/HammingDecoder.lean ====
section
/-! DEFINITION. Machine/HammingDecoder: the function of hamming_decoder (44_hamming_decoder.md rule R42). -/

namespace Sys2Proof.Machine

/-- Step 3 of the decoder: flip the located bit in the `CL`-bit codeword, if one was located. -/
def correct (c : Config) (codewordIn : BitVec c.cl) : Option Nat → BitVec c.cl
  | none => codewordIn
  | some k => codewordIn ^^^ oneHot c.cl k

/-- `DECODE` (44_hamming_decoder.md rule R42): syndrome, localisation, correction, then the data field. -/
def hammingDecoder (c : Config) (codewordIn : BitVec c.cl) : BitVec c.dl × Option Nat :=
  let position := errorLocator c (syndromeCalculator c codewordIn)
  (dataField c (correct c codewordIn position), position)

end Sys2Proof.Machine
end

