-- ==== Sys2Proof/Machine/Flags.lean ====
section
/-! DEFINITION. Machine/Flags: the block has no flag (10_state.md rule R10). The nearest thing is the none/located
distinction of the error position, an output computed afresh by each evaluation; this file holds it and the three
cases a decoder evaluation falls in (44_hamming_decoder.md rule R43), which no port shows. -/

namespace Sys2Proof.Machine

/-- Bit `M` of an `error_position` port: set exactly when nothing was located (30_encoding.md rule R20). -/
def nothingLocated (c : Config) (port : BitVec (c.m + 1)) : Bool := port.getLsbD c.m

/-- The three cases of a `DECODE` evaluation (44_hamming_decoder.md rule R43). -/
inductive DecodeCase where
  | noErrorDetected
  | located (k : Nat)
  | uncorrectablePattern
  deriving DecidableEq, Repr

/-- The case a syndrome falls in (44_hamming_decoder.md rule R43; 60_exceptions.md rule R55): "the class is defined by the
syndrome alone". -/
def decodeCase (c : Config) (syndrome : BitVec c.pl) : DecodeCase :=
  if syndrome = 0#c.pl then .noErrorDetected
  else
    match errorLocator c syndrome with
    | some k => .located k
    | none => .uncorrectablePattern

end Sys2Proof.Machine
end

