-- ==== Sys2Proof/Machine/State.lean ====
section
/-! DEFINITION. Machine/State: the state of one codec, its faults (none) and refusals, and the state after reset. -/

namespace Sys2Proof.Machine

/-- Run-time faults: there are none. "At run time no block raises a synchronous exception, for any input"
(60_exceptions.md rule R56), so no step can answer a fault. -/
inductive Fault where
  deriving DecidableEq, Repr

/-- Refusals. None is raised by an operation of built hardware (60_exceptions.md rule R56). -/
inductive Refusal where
  /-- Raised by `exec` for an operation that has no meaning yet; no arm uses it. Safe. -/
  | notModelled (mnemonic : String)
  /-- Raised by `construct` and `State.configure`: the hardware is not built (60_exceptions.md rule R54). Safe. -/
  | invalidConstruction (reason : ConstructionError)
  /-- Raised by the integer views for a number that no vector of the port's width stands for
  (41_hamming_encoder.md rule R36). Safe. -/
  | valueTooWide (width value : Nat)
  /-- Raised by `flipBit` for a position outside the codeword (30_encoding.md rule R25: `0 <= k < CL`). Safe. -/
  | noSuchPosition (cl k : Nat)
  /-- Raised by `runEvent` for an index that names no instance (20_memory.md rule R15). Safe. -/
  | noSuchInstance (index : Nat)
  deriving DecidableEq, Repr

/-- One codec: the configuration it was built for, the model's tag, and the ports of its four blocks (30_encoding.md rule
R21). The spec's machine has no mutable state (10_state.md rule R7); the fields are what a step reads and writes. An
output field shows the function of its block's input (70_reset_and_hazards.md rule R59) in a codec just built, after every
step and after every change of an input; a state written out by hand may hold anything (log entries 1, 2). -/
structure State where
  /-- The elaboration constants (10_state.md rule R8). -/
  cfg : Config
  /-- The model-only tag: which block is evaluated next (30_encoding.md rule R22). -/
  op : Tag
  /-- hamming_encoder.data_in. -/
  encDataIn : BitVec cfg.dl
  /-- hamming_encoder.codeword_out. -/
  encCodewordOut : BitVec cfg.cl
  /-- syndrome_calculator.codeword_in. -/
  synCodewordIn : BitVec cfg.cl
  /-- syndrome_calculator.syndrome_out. -/
  synSyndromeOut : BitVec cfg.pl
  /-- error_locator.syndrome_in. -/
  locSyndromeIn : BitVec cfg.pl
  /-- error_locator.error_position. -/
  locErrorPosition : BitVec (cfg.m + 1)
  /-- hamming_decoder.codeword_in. -/
  decCodewordIn : BitVec cfg.cl
  /-- hamming_decoder.data_out. -/
  decDataOut : BitVec cfg.dl
  /-- hamming_decoder.error_position. -/
  decErrorPosition : BitVec (cfg.m + 1)
  deriving DecidableEq, Repr

/-- A codec just built for `c`. The inputs are zero (DESIGN CHOICE, log entry 4) and the tag is 0 (DESIGN CHOICE, log
entry 5); each output "shows the function of whatever the input port carries" (10_state.md rule R11). -/
def State.initial (c : Config) : State where
  cfg := c
  op := 0#2
  encDataIn := 0#c.dl
  encCodewordOut := hammingEncoder c 0#c.dl
  synCodewordIn := 0#c.cl
  synSyndromeOut := syndromeCalculator c 0#c.cl
  locSyndromeIn := 0#c.pl
  locErrorPosition := errorPositionPort c (errorLocator c 0#c.pl)
  decCodewordIn := 0#c.cl
  decDataOut := (hammingDecoder c 0#c.cl).1
  decErrorPosition := errorPositionPort c (hammingDecoder c 0#c.cl).2

/-- The machine right after reset: the reference configuration (DESIGN CHOICE, log entry 3), just built. -/
def State.reset : State := State.initial Config.reference

end Sys2Proof.Machine
end

