-- ==== Sys2Proof/Machine/Ops.lean ====
section
/-! DEFINITION. Machine/Ops: the named operations over the ports. A block's evaluation delivers its outputs; the
environment drives inputs, and the outputs of the driven block follow at once (70_reset_and_hazards.md rule R59). There is no memory, no register and no exception to take (20_memory.md rule R12,
10_state.md rule R10, 60_exceptions.md rule R56). -/

namespace Sys2Proof.Machine

/-- hamming_encoder drives `codeword_out` (41_hamming_encoder.md rule R34: "State written: `codeword_out` only"). -/
def State.deliverCodeword (s : State) (v : BitVec s.cfg.cl) : State := { s with encCodewordOut := v }

/-- syndrome_calculator drives `syndrome_out` (42_syndrome_calculator.md rule R37). -/
def State.deliverSyndrome (s : State) (v : BitVec s.cfg.pl) : State := { s with synSyndromeOut := v }

/-- error_locator drives `error_position` (43_error_locator.md rule R40). -/
def State.deliverPosition (s : State) (p : Option Nat) : State :=
  { s with locErrorPosition := errorPositionPort s.cfg p }

/-- hamming_decoder drives `data_out` and `error_position` (44_hamming_decoder.md rule R42). -/
def State.deliverDecoded (s : State) (d : BitVec s.cfg.dl) (p : Option Nat) : State :=
  { s with decDataOut := d, decErrorPosition := errorPositionPort s.cfg p }

/-- Every output port shows the function of its block's input port: what the wires of a codec carry "at every moment"
(70_reset_and_hazards.md rule R59; 10_state.md rule R11). -/
def State.settle (s : State) : State :=
  let decoded := hammingDecoder s.cfg s.decCodewordIn
  { s with
    encCodewordOut := hammingEncoder s.cfg s.encDataIn
    synSyndromeOut := syndromeCalculator s.cfg s.synCodewordIn
    locErrorPosition := errorPositionPort s.cfg (errorLocator s.cfg s.locSyndromeIn)
    decDataOut := decoded.1
    decErrorPosition := errorPositionPort s.cfg decoded.2 }

/-- The environment drives `data_in`, `codeword_out` follows, and hamming_encoder is the block read next. -/
def State.driveEncoder (s : State) (v : BitVec s.cfg.dl) : State :=
  { s with op := 0#2, encDataIn := v, encCodewordOut := hammingEncoder s.cfg v }

/-- The environment drives syndrome_calculator's `codeword_in`, `syndrome_out` follows, and that block is read next. -/
def State.driveSyndromeCalculator (s : State) (v : BitVec s.cfg.cl) : State :=
  { s with op := 1#2, synCodewordIn := v, synSyndromeOut := syndromeCalculator s.cfg v }

/-- The environment drives `syndrome_in`, `error_position` follows, and error_locator is the block read next. -/
def State.driveErrorLocator (s : State) (v : BitVec s.cfg.pl) : State :=
  { s with op := 2#2, locSyndromeIn := v, locErrorPosition := errorPositionPort s.cfg (errorLocator s.cfg v) }

/-- The environment drives hamming_decoder's `codeword_in`, both its outputs follow, and that block is read next. -/
def State.driveHammingDecoder (s : State) (v : BitVec s.cfg.cl) : State :=
  let decoded := hammingDecoder s.cfg v
  { s with op := 3#2, decCodewordIn := v, decDataOut := decoded.1,
           decErrorPosition := errorPositionPort s.cfg decoded.2 }

end Sys2Proof.Machine
end

