-- ==== Sys2Proof/Machine/Codec.lean ====
section
/-! DEFINITION. Machine/Codec: the meaning of each operation, one definition per row of opcode_table.json. Each is one
atomic evaluation of one block (70_reset_and_hazards.md rule R59): it reads the block's input port and the
configuration, writes the block's output ports, and nothing else. -/

namespace Sys2Proof.Machine

/-- `ENCODE` (41_hamming_encoder.md rule R34). -/
def execEncode (s : State) : Host.Outcome State Fault Refusal :=
  .next (s.deliverCodeword (hammingEncoder s.cfg s.encDataIn))

/-- `SYNDROME` (42_syndrome_calculator.md rule R37). -/
def execSyndrome (s : State) : Host.Outcome State Fault Refusal :=
  .next (s.deliverSyndrome (syndromeCalculator s.cfg s.synCodewordIn))

/-- `LOCATE` (43_error_locator.md rule R40). -/
def execLocate (s : State) : Host.Outcome State Fault Refusal :=
  .next (s.deliverPosition (errorLocator s.cfg s.locSyndromeIn))

/-- `DECODE` (44_hamming_decoder.md rule R42). -/
def execDecode (s : State) : Host.Outcome State Fault Refusal :=
  let result := hammingDecoder s.cfg s.decCodewordIn
  .next (s.deliverDecoded result.1 result.2)

end Sys2Proof.Machine
end

