-- ==== Sys2Proof/Machine/Dispatch.lean ====
section
/-! DEFINITION. Machine/Dispatch: one arm per operation of 30_encoding.md rule R22. -/

namespace Sys2Proof.Machine

def exec (i : Instr) (s : State) : Host.Outcome State Fault Refusal :=
  match i with
  | .encode => Sys2Proof.Machine.execEncode s
  | .syndrome => Sys2Proof.Machine.execSyndrome s
  | .locate => Sys2Proof.Machine.execLocate s
  | .decode => Sys2Proof.Machine.execDecode s

end Sys2Proof.Machine
end

