-- ==== Sys2Proof/Machine/Step.lean ====
section
/-! DEFINITION. Machine/Step: one evaluation of the block the tag selects, with every port following its input. -/

namespace Sys2Proof.Machine

/-- One step: the operation whose tag stands in the state is evaluated (30_encoding.md rule R22), on ports that all follow
their inputs: "at every moment" the outputs of every block are the function of its current inputs, whichever block the
environment reads (70_reset_and_hazards.md rule R59). There is no program counter to move (60_exceptions.md rule R57). -/
def step (s : State) : Host.Outcome State Fault Refusal := exec (decodeTag s.op) s.settle

/-- The state with the operation of word `w` selected, so that the next step runs it; a word that is no tag selects
nothing and leaves the state as it is (log entry 6). -/
def State.withFetchWord (s : State) (_nbits w : Nat) : State :=
  if wellFormedTagWord w then { s with op := BitVec.ofNat 2 w } else s

end Sys2Proof.Machine
end

