-- ==== Sys2Proof/Machine/Construction.lean ====
section
/-! DEFINITION. Machine/Construction: `new(data_length)`, the elaboration of a codec (40_construction.md). It is not an
operation of the built hardware (30_encoding.md rule R22). -/

namespace Sys2Proof.Machine

/-- Construction (40_construction.md rules R26, R31, R32; 60_exceptions.md rule R54): a built configuration, or a
refusal with its cause. -/
def construct (guardPL0 : Bool) (dl : Nat) : Host.Outcome Config Fault Refusal :=
  match h : constructionError guardPL0 dl with
  | none => .next { dl := dl, guardPL0 := guardPL0, built := h }
  | some reason => .refused (.invalidConstruction reason)

/-- The line `CONFIG DL=<n>` (30_encoding.md rule R25): a codec just built, or the refusal of its configuration. -/
def State.configure (guardPL0 : Bool) (dl : Nat) : Host.Outcome State Fault Refusal :=
  match construct guardPL0 dl with
  | .next c => .next (State.initial c)
  | .fault r => .fault r
  | .refused r => .refused r

end Sys2Proof.Machine
end

