-- ==== Sys2Proof/Machine/Environment.lean ====
section
/-! DEFINITION. Machine/Environment: what the environment does to a codec (30_encoding.md rule R25; 60_exceptions.md rule
R58): it flips bits of a codeword and runs operation lines. It is not part of any block (00_scope.md rule R3 (c)). -/

namespace Sys2Proof.Machine

/-- The channel: an error pattern is exclusive-ored onto a codeword (45_properties.md rule R49). -/
def channel (c : Config) (codeword error : BitVec c.cl) : BitVec c.cl := codeword ^^^ error

/-- `FLIP <codeword>, <k>`: `codeword ^ (1 << k)` for `0 <= k < CL` (30_encoding.md rule R25). -/
def flipBit (c : Config) (codeword : BitVec c.cl) (k : Nat) : Host.Outcome (BitVec c.cl) Fault Refusal :=
  if wellFormedPosition c.cl k then .next (channel c codeword (oneHot c.cl k)) else .refused (.noSuchPosition c.cl k)

/-- One operation line, `ENCODE <data>`, `SYNDROME <codeword>`, `LOCATE <syndrome>` or `DECODE <codeword>`
(30_encoding.md rule R25); its value stands for the port vector under 00_scope.md rule R5. -/
structure Line where
  op : Instr
  value : Nat
  deriving DecidableEq, Repr

/-- The environment presents a line's value on the input port of the line's block. -/
def State.present (s : State) (l : Line) : State :=
  match l.op with
  | .encode => s.driveEncoder (BitVec.ofNat s.cfg.dl l.value)
  | .syndrome => s.driveSyndromeCalculator (BitVec.ofNat s.cfg.cl l.value)
  | .locate => s.driveErrorLocator (BitVec.ofNat s.cfg.pl l.value)
  | .decode => s.driveHammingDecoder (BitVec.ofNat s.cfg.cl l.value)

/-- One line: "the environment presents an input vector and reads the output vector" (70_reset_and_hazards.md rule R59).
A value that no vector of the port stands for is refused. -/
def State.runLine (s : State) (l : Line) : Host.Outcome State Fault Refusal :=
  if wellFormedPortValue (inputWidth s.cfg l.op) l.value then step (s.present l)
  else .refused (.valueTooWide (inputWidth s.cfg l.op) l.value)

/-- Lines one after another. -/
def State.runLines (s : State) : List Line → Host.Outcome State Fault Refusal
  | [] => .next s
  | l :: rest =>
    match s.runLine l with
    | .next t => t.runLines rest
    | .fault r => .fault r
    | .refused r => .refused r

end Sys2Proof.Machine
end

