-- ==== Sys2Proof/Machine/Instances.lean ====
section
/-! DEFINITION. Machine/Instances: any number of codecs, of the same or of different configurations, evaluated in any
order (20_memory.md rule R15; 60_exceptions.md rule R58). -/

namespace Sys2Proof.Machine

/-- One event: a line run on one instance. -/
structure Event where
  index : Nat
  line : Line
  deriving DecidableEq, Repr

/-- One event of a collection of instances: only the named instance is evaluated (20_memory.md rule R15 (a)). -/
def runEvent (all : List State) (e : Event) : Host.Outcome (List State) Fault Refusal :=
  match all[e.index]? with
  | none => .refused (.noSuchInstance e.index)
  | some s =>
    match s.runLine e.line with
    | .next t => .next (all.set e.index t)
    | .fault r => .fault r
    | .refused r => .refused r

/-- A schedule: events one after another, instances interleaved in any way. -/
def runEvents (all : List State) : List Event → Host.Outcome (List State) Fault Refusal
  | [] => .next all
  | e :: rest =>
    match runEvent all e with
    | .next after => runEvents after rest
    | .fault r => .fault r
    | .refused r => .refused r

/-- The lines a schedule gives to one instance, in their order. -/
def linesOf (index : Nat) (schedule : List Event) : List Line :=
  (schedule.filter fun e => e.index == index).map fun e => e.line

end Sys2Proof.Machine
end

