-- ==== Sys2Proof/Machine/IntegerView.lean ====
section
/-! DEFINITION. Machine/IntegerView: the source's functions over unsigned integers, related to the ports by 00_scope.md
rule R5. -/

namespace Sys2Proof.Machine

/-- `encode : Nat -> Nat` requires `data < 2^DL` "and refuse any other argument" (41_hamming_encoder.md rule R36; D11). -/
def encodeInt (c : Config) (data : Nat) : Host.Outcome Nat Fault Refusal :=
  if wellFormedPortValue c.dl data then .next (hammingEncoder c (BitVec.ofNat c.dl data)).toNat
  else .refused (.valueTooWide c.dl data)

/-- `syndrome : Nat -> Nat` "computes `val(SYNDROME(v))` for the `CL`-bit vector `v` with `v[j] = bit(codeword, j)`"
(42_syndrome_calculator.md rule R39). -/
def syndromeInt (c : Config) (codeword : Nat) : Nat := (syndromeCalculator c (BitVec.ofNat c.cl codeword)).toNat

/-- `decode : Nat -> Nat x (Int or none)` on every natural number (44_hamming_decoder.md rule R45; D11, log entry 10). -/
def decodeInt (c : Config) (codeword : Nat) : Nat × Option Nat :=
  let result := hammingDecoder c (BitVec.ofNat c.cl codeword)
  (result.1.toNat, result.2)

end Sys2Proof.Machine
end

