-- ==== Sys2Proof/Safety.lean ====
section
/-! DEFINITION. Safety: the conditions on states that claims about runs use. -/

namespace Sys2Proof.Machine

/-- The outputs of the block of operation `i` are the function of its inputs (70_reset_and_hazards.md rule R59). -/
def BlockSettled (i : Instr) (s : State) : Prop :=
  match i with
  | .encode => s.encCodewordOut = hammingEncoder s.cfg s.encDataIn
  | .syndrome => s.synSyndromeOut = syndromeCalculator s.cfg s.synCodewordIn
  | .locate => s.locErrorPosition = errorPositionPort s.cfg (errorLocator s.cfg s.locSyndromeIn)
  | .decode =>
    s.decDataOut = (hammingDecoder s.cfg s.decCodewordIn).1 ∧
      s.decErrorPosition = errorPositionPort s.cfg (hammingDecoder s.cfg s.decCodewordIn).2

/-- Every block's outputs are the function of its inputs, "at every moment" (70_reset_and_hazards.md rule R59). -/
def Settled (s : State) : Prop := ∀ i, BlockSettled i s

/-- `s0(d)`, the syndrome of the clean codeword of `d` (45_properties.md rule R47). -/
def cleanSyndrome (c : Config) (d : BitVec c.dl) : BitVec c.pl := syndromeCalculator c (hammingEncoder c d)

/-- `val(s) = 2^k` for some `k` (43_error_locator.md rule R40). -/
def IsPowerOfTwo (n : Nat) : Prop := ∃ k, n = 2 ^ k

/-- A port carries a legal error position below `bound`: `none` as all ones, or a position `k < bound`
(30_encoding.md rules R20, R23). -/
def PositionInReach (c : Config) (port : BitVec (c.m + 1)) (bound : Nat) : Prop :=
  port = errorPositionPort c none ∨ ∃ k, k < bound ∧ port = errorPositionPort c (some k)

/-- No output port of a built codec carries a value the spec calls unreachable (30_encoding.md rule R23;
43_error_locator.md rule R41 item 3 for the decoder's own locator). -/
def OutputsInReach (s : State) : Prop :=
  (∀ p, s.cfg.m ≤ p → p < s.cfg.pl → s.encCodewordOut.getLsbD (s.cfg.dl + p) = false) ∧
  (∀ i, s.cfg.m ≤ i → i < s.cfg.pl → s.synSyndromeOut.getLsbD i = false) ∧
  PositionInReach s.cfg s.locErrorPosition s.cfg.pl ∧
  PositionInReach s.cfg s.decErrorPosition (min s.cfg.pl s.cfg.m)

end Sys2Proof.Machine
end

