-- ==== Sys2Proof/Certificates/Slice0/Obligations.lean ====
section
/-! DEFINITION. Obligations: the statements for the provers. Each formalises the rule or section of the spec its
docstring names. -/

open Sys2Proof Sys2Proof.Machine

/-! ### Construction (40_construction.md) -/

/-- R26, R54: `DL = 0` is refused first, whatever the guard; a power of two is refused under the guard; every other data
length is built; no machine state belongs to a refused configuration. -/
def Obligations.ConstructRefusesByCauseAndBuildsTheRest : Prop :=
  (∀ guard, construct guard 0 = .refused (.invalidConstruction (.dataLengthZero 0)) ∧
    State.configure guard 0 = .refused (.invalidConstruction (.dataLengthZero 0))) ∧
  (∀ k, construct true (2 ^ k) = .refused (.invalidConstruction (.parityLengthZero (2 ^ k))) ∧
    State.configure true (2 ^ k) = .refused (.invalidConstruction (.parityLengthZero (2 ^ k)))) ∧
  (∀ guard dl, dl ≠ 0 → (guard = false ∨ ¬ IsPowerOfTwo dl) →
    ∃ c, construct guard dl = .next c ∧ State.configure guard dl = .next (State.initial c) ∧
      c.dl = dl ∧ c.guardPL0 = guard) ∧
  (∀ s : State, s.cfg.dl ≠ 0 ∧ (s.cfg.guardPL0 = true → ¬ IsPowerOfTwo s.cfg.dl)) ∧
  (∀ dl, (ConstructionError.dataLengthZero dl).code = "E1" ∧ (ConstructionError.parityLengthZero dl).code = "E2")

/-- R27: `CL = 2^M` for the least `M` with `2^M >= DL`, its equivalent forms and its worked values. -/
def Obligations.CodewordLengthIsLeastPowerOfTwo : Prop :=
  (∀ dl, 1 ≤ dl →
    (∃ M, codewordLength dl = 2 ^ M ∧ dl ≤ 2 ^ M ∧ ∀ j, dl ≤ 2 ^ j → M ≤ j) ∧
    (dl = 1 → codewordLength dl = 2 ^ 0) ∧
    (dl ≠ 1 → codewordLength dl = 2 ^ Nat.size (dl - 1)) ∧
    (codewordLength dl = dl ↔ IsPowerOfTwo dl) ∧
    dl ≤ codewordLength dl ∧ codewordLength dl < 2 * dl) ∧
  codewordLength 11 = 16 ∧ codewordLength 5 = 8 ∧ codewordLength 4 = 4 ∧ codewordLength 1 = 1

/-- R28: `PL = CL - DL`, its bounds, when it is zero, and its worked values. -/
def Obligations.ParityLengthIsTheRestOfTheCodeword : Prop :=
  (∀ dl, 1 ≤ dl →
    dl + parityLength dl = codewordLength dl ∧ parityLength dl < dl ∧
    (parityLength dl = 0 ↔ IsPowerOfTwo dl) ∧ (3 ≤ dl → parityLength dl ≤ dl - 2)) ∧
  parityLength 11 = 5 ∧ parityLength 5 = 3 ∧ parityLength 3 = 1 ∧ parityLength 4 = 0

/-- R29: `MASK = 2^DL - 1` has exactly the data field's bits set, and masking then dropping the zero bits is the slice. -/
def Obligations.MaskSelectsTheDataField : Prop :=
  (∀ c : Config,
    c.mask + 1 = 2 ^ c.dl ∧
    (∀ j, j < c.cl → (BitVec.ofNat c.cl c.mask).getLsbD j = decide (j < c.dl)) ∧
    ∀ codeword : BitVec c.cl,
      (codeword &&& BitVec.ofNat c.cl c.mask).toNat = (dataField c codeword).toNat) ∧
  Config.reference.mask = 0x7FF

/-- R30: `2^M = CL`, so `M` bits hold exactly the codeword positions; the worked value, and `PL` against `M`: `PL >= M` for
`DL` = 5, 11, 12 and not for `DL` = 3, 6, 13. -/
def Obligations.IndexBitsIsLogOfCodewordLength : Prop :=
  (∀ dl, 1 ≤ dl → 2 ^ indexBits dl = codewordLength dl ∧ ∀ k, k < codewordLength dl ↔ k < 2 ^ indexBits dl) ∧
  (parityLength 5 = 3 ∧ indexBits 5 = 3) ∧ (parityLength 11 = 5 ∧ indexBits 11 = 4) ∧
  (parityLength 12 = 4 ∧ indexBits 12 = 4) ∧ (parityLength 3 = 1 ∧ indexBits 3 = 2) ∧
  (parityLength 6 = 2 ∧ indexBits 6 = 3) ∧ (parityLength 13 = 3 ∧ indexBits 13 = 4)

/-- R32: two codecs of one data length have the same parameters and are the same functions. -/
def Obligations.EqualDataLengthsGiveEqualCodecs : Prop :=
  ∀ c c' : Config, c.dl = c'.dl →
    c.parameters = c'.parameters ∧
    ∀ n, encodeInt c n = encodeInt c' n ∧ syndromeInt c n = syndromeInt c' n ∧
      errorLocator c (BitVec.ofNat c.pl n) = errorLocator c' (BitVec.ofNat c'.pl n) ∧ decodeInt c n = decodeInt c' n

/-- R31: `PL = 0`. With the guard the configuration is refused; without it, it is built, `ENCODE` is the identity, the
syndrome is the empty vector, nothing is ever located and `DECODE` is the identity. `DL = 0` never reaches the rule. -/
def Obligations.DegenerateCodecIsTheIdentity : Prop :=
  (∀ dl, IsPowerOfTwo dl →
    construct true dl = .refused (.invalidConstruction (.parityLengthZero dl)) ∧
    ∃ c, construct false dl = .next c ∧ c.dl = dl ∧ c.pl = 0) ∧
  (∀ guard, construct guard 0 = .refused (.invalidConstruction (.dataLengthZero 0))) ∧
  (∀ s : State, s.cfg.pl = 0 →
    s.cfg.guardPL0 = false ∧ s.cfg.cl = s.cfg.dl ∧
    (∃ v, exec .encode s = .next { s with encCodewordOut := v } ∧ v.toNat = s.encDataIn.toNat) ∧
    (∃ v, exec .syndrome s = .next { s with synSyndromeOut := v } ∧ v.toNat = 0) ∧
    exec .locate s = .next { s with locErrorPosition := BitVec.allOnes (s.cfg.m + 1) } ∧
    ∃ d, exec .decode s = .next { s with decDataOut := d, decErrorPosition := BitVec.allOnes (s.cfg.m + 1) } ∧
      d.toNat = s.decCodewordIn.toNat) ∧
  (∀ c : Config, c.dl = 4 → hammingDecoder c (BitVec.ofNat c.cl 0b1011) = (BitVec.ofNat c.dl 0b1011, none))

/-! ### hamming_encoder (41_hamming_encoder.md) -/

/-- R33: the bits of a contribution, the positions it never sets, and the worked values. -/
def Obligations.ContributionSetsItsDataBitAndItsParityBits : Prop :=
  (∀ c : Config, ∀ i, i < c.dl →
    (∀ j, j < c.dl → (contrib c i).getLsbD j = decide (j = i)) ∧
    (∀ p, p < c.pl → (contrib c i).getLsbD (c.dl + p) = natBit i p) ∧
    (∀ p, c.m ≤ p → (contrib c i).getLsbD (c.dl + p) = false)) ∧
  (∀ c : Config, ∀ p, (contrib c 0).getLsbD (c.dl + p) = false) ∧
  (∀ c : Config, c.dl = 6 → (contrib c 4).toNat = 0x10) ∧
  (contrib Config.reference 5).toNat = 0x2820

/-- R34: `ENCODE` completes on every state, writes `codeword_out` only, and delivers the exclusive-or of the contributions
of the set data bits, in whatever order the loop runs; the corner cases and the worked example. -/
def Obligations.EncodeDeliversTheXorOfContributions : Prop :=
  (∀ s : State, ∃ v : BitVec s.cfg.cl,
    exec .encode s = .next { s with encCodewordOut := v } ∧
    (∀ j, v.getLsbD j =
      xorOver s.cfg.dl fun i => s.encDataIn.getLsbD i && (contrib s.cfg i).getLsbD j) ∧
    (∀ order : List Nat, order.Perm (List.range s.cfg.dl) →
      v = order.foldl (fun w i => if s.encDataIn.getLsbD i then w ^^^ contrib s.cfg i else w) 0#s.cfg.cl) ∧
    (s.encDataIn.toNat = 0 → v.toNat = 0) ∧ (s.encDataIn.toNat = 1 → v.toNat = 1) ∧
    (s.cfg.pl = 0 → v.toNat = s.encDataIn.toNat)) ∧
  (hammingEncoder Config.reference (BitVec.ofNat _ 0b110011)).toNat = 0x0033

/-- R35, closed form: the data field is the data word, and parity bit `p` is the exclusive-or of the data bits whose index
has bit `p` set; delivered by `ENCODE` on every state, with every other port unchanged. -/
def Obligations.EncodeClosedForm : Prop :=
  ∀ s : State, ∃ v : BitVec s.cfg.cl,
    exec .encode s = .next { s with encCodewordOut := v } ∧
    (∀ i, i < s.cfg.dl → v.getLsbD i = s.encDataIn.getLsbD i) ∧
    ∀ p, p < s.cfg.pl →
      v.getLsbD (s.cfg.dl + p) = xorOver s.cfg.dl fun i => natBit i p && s.encDataIn.getLsbD i

/-- R35 items 1 and 2: `ENCODE` keeps the data recoverable, is injective, and is linear over exclusive-or. -/
def Obligations.EncodeIsRecoverableInjectiveLinear : Prop :=
  ∀ c : Config,
    (∀ d, dataField c (hammingEncoder c d) = d) ∧
    (∀ a b, hammingEncoder c a = hammingEncoder c b → a = b) ∧
    (∀ a b, hammingEncoder c (a ^^^ b) = hammingEncoder c a ^^^ hammingEncoder c b) ∧
    hammingEncoder c 0#c.dl = 0#c.cl

/-- R35 items 3 and 4: parity bits at or above `M` are always zero, and data bit `i` enters parity bit `p` exactly when
`bit(i, p) = 1`, which needs `p < M`; data bit 0 enters none. -/
def Obligations.EncodeParityReach : Prop :=
  ∀ (c : Config) (d : BitVec c.dl),
    (∀ p, c.m ≤ p → (hammingEncoder c d).getLsbD (c.dl + p) = false) ∧
    (∀ i p, i < c.dl → p < c.pl →
      (hammingEncoder c (d ^^^ oneHot c.dl i)).getLsbD (c.dl + p) =
        Bool.xor ((hammingEncoder c d).getLsbD (c.dl + p)) (natBit i p) ∧
      (natBit i p = true → p < c.m)) ∧
    (∀ p, (hammingEncoder c (d ^^^ oneHot c.dl 0)).getLsbD (c.dl + p) = (hammingEncoder c d).getLsbD (c.dl + p))

/-- R35, the table of parity equations for `DL` = 3, 5, 6 and 11. -/
def Obligations.EncodeParityEquations : Prop :=
  ∀ (c : Config) (d : BitVec c.dl),
    let out := fun j => (hammingEncoder c d).getLsbD j
    let x := fun i => d.getLsbD i
    (c.dl = 3 → out 3 = x 1) ∧
    (c.dl = 5 → out 5 = Bool.xor (x 1) (x 3) ∧ out 6 = Bool.xor (x 2) (x 3) ∧ out 7 = x 4) ∧
    (c.dl = 6 → out 6 = Bool.xor (Bool.xor (x 1) (x 3)) (x 5) ∧ out 7 = Bool.xor (x 2) (x 3)) ∧
    (c.dl = 11 →
      out 11 = Bool.xor (Bool.xor (Bool.xor (Bool.xor (x 1) (x 3)) (x 5)) (x 7)) (x 9) ∧
      out 12 = Bool.xor (Bool.xor (Bool.xor (Bool.xor (x 2) (x 3)) (x 6)) (x 7)) (x 10) ∧
      out 13 = Bool.xor (Bool.xor (Bool.xor (x 4) (x 5)) (x 6)) (x 7) ∧
      out 14 = Bool.xor (Bool.xor (x 8) (x 9)) (x 10) ∧
      out 15 = false)

/-- R36: the integer view of `encode` is `val(ENCODE(v))` for `val(v) = data < 2^DL`, and every other argument is refused. -/
def Obligations.EncodeIntegerViewRefusesWideData : Prop :=
  (∀ (c : Config) (data : Nat),
    (∀ v : BitVec c.dl, v.toNat = data → encodeInt c data = .next (hammingEncoder c v).toNat) ∧
    (2 ^ c.dl ≤ data → encodeInt c data = .refused (.valueTooWide c.dl data))) ∧
  encodeInt Config.reference 51 = .next 51 ∧
  encodeInt Config.reference 2048 = .refused (.valueTooWide 11 2048)

/-! ### syndrome_calculator (42_syndrome_calculator.md) -/

/-- R37: `SYNDROME` completes on every state, writes `syndrome_out` only, and bit `i` is the exclusive-or of the codeword
bits whose position has bit `i` set; the corner cases and the worked example. -/
def Obligations.SyndromeDeliversTheParityChecks : Prop :=
  (∀ s : State, ∃ v : BitVec s.cfg.pl,
    exec .syndrome s = .next { s with synSyndromeOut := v } ∧
    (∀ i, i < s.cfg.pl → v.getLsbD i = xorOver s.cfg.cl fun j => natBit j i && s.synCodewordIn.getLsbD j) ∧
    (s.synCodewordIn.toNat = 0 → v.toNat = 0) ∧
    (∀ i, s.cfg.m ≤ i → v.getLsbD i = false) ∧
    (s.cfg.pl = 0 → v.toNat = 0)) ∧
  (∀ (c : Config) (w : BitVec c.cl), syndromeCalculator c (w ^^^ oneHot c.cl 0) = syndromeCalculator c w) ∧
  (syndromeCalculator Config.reference (BitVec.ofNat _ 35)).toNat = 4

/-- R38 item 1: `SYNDROME` is linear over exclusive-or. -/
def Obligations.SyndromeIsLinear : Prop :=
  ∀ c : Config,
    (∀ a b, syndromeCalculator c (a ^^^ b) = syndromeCalculator c a ^^^ syndromeCalculator c b) ∧
    syndromeCalculator c 0#c.cl = 0#c.pl

/-- R38 items 2 and 3: flipping position `k` changes the syndrome by exactly the low `PL` bits of `k`; position 0 is in no
check, and positions that agree modulo `2^PL` change it alike. -/
def Obligations.SyndromeSingleBitLaw : Prop :=
  ∀ (c : Config) (k : Nat), k < c.cl →
    (∀ i, i < c.pl → (syndromeCalculator c (oneHot c.cl k)).getLsbD i = natBit k i) ∧
    (syndromeCalculator c (oneHot c.cl k)).toNat = k % 2 ^ c.pl ∧
    (∀ w, syndromeCalculator c (w ^^^ oneHot c.cl k) = syndromeCalculator c w ^^^ BitVec.ofNat c.pl (k % 2 ^ c.pl)) ∧
    (k = 0 → ∀ w, syndromeCalculator c (w ^^^ oneHot c.cl k) = syndromeCalculator c w) ∧
    (∀ k', k' < c.cl → k' % 2 ^ c.pl = k % 2 ^ c.pl →
      ∀ w, syndromeCalculator c (w ^^^ oneHot c.cl k') = syndromeCalculator c (w ^^^ oneHot c.cl k))

/-- R38 items 4 and 5: check `i` covers half of the positions for `i < M` and none from `M` on, where the syndrome bit is
always zero. -/
def Obligations.SyndromeCoverSizes : Prop :=
  ∀ c : Config,
    (∀ i, i < c.m → 2 * (List.range c.cl).countP (fun j => natBit j i) = c.cl) ∧
    (∀ i, c.m ≤ i → (List.range c.cl).countP (fun j => natBit j i) = 0) ∧
    (∀ i w, c.m ≤ i → (syndromeCalculator c w).getLsbD i = false)

/-- R39: the integer view of the syndrome depends on the bits below `CL` only. -/
def Obligations.SyndromeIntegerViewIgnoresHighBits : Prop :=
  (∀ (c : Config) (n : Nat) (v : BitVec c.cl), (∀ j, j < c.cl → v.getLsbD j = natBit n j) →
    syndromeInt c n = (syndromeCalculator c v).toNat) ∧
  syndromeInt Config.reference 35 = 4 ∧ syndromeInt Config.reference (35 + 65536) = 4

/-! ### error_locator (43_error_locator.md) and the error position (30_encoding.md) -/

/-- R20: the port encoding of an error position: `none` is -1, all ones; `k` is the value `k` with bit `M` clear; the port
says `none` exactly when its bit `M` is set, and reads back as the position; positions `k >= PL` are representable and are
never produced. -/
def Obligations.ErrorPositionPortIsTwosComplement : Prop :=
  ∀ c : Config,
    errorPositionPort c none = BitVec.allOnes (c.m + 1) ∧
    (errorPositionPort c none).toInt = errorPositionInt none ∧ errorPositionInt none = -1 ∧
    (∀ k, k < c.cl →
      (errorPositionPort c (some k)).getLsbD c.m = false ∧
      ((errorPositionPort c (some k)).extractLsb' 0 c.m).toNat = k ∧
      (errorPositionPort c (some k)).toInt = errorPositionInt (some k) ∧ errorPositionInt (some k) = (k : Int)) ∧
    (∀ p : Option Nat, (∀ k, p = some k → k < c.cl) →
      errorPositionOfPort c (errorPositionPort c p) = p ∧
      nothingLocated c (errorPositionPort c p) = p.isNone) ∧
    (∀ s k, errorLocator c s = some k → k < c.pl) ∧ c.pl < c.cl

/-- R40: `LOCATE` completes on every state, writes `error_position` only, and delivers `k` exactly when the syndrome is
`2^k` (equivalently, when bit `k` is its only set bit), else `none`; the corner cases and the worked examples. -/
def Obligations.LocateDeliversTheExponentOfAPowerOfTwo : Prop :=
  (∀ s : State, ∃ p : Option Nat,
    exec .locate s = .next { s with locErrorPosition := errorPositionPort s.cfg p } ∧
    (∀ k, p = some k ↔ s.locSyndromeIn.toNat = 2 ^ k) ∧
    (∀ k, p = some k ↔ k < s.cfg.pl ∧ ∀ i, i < s.cfg.pl → s.locSyndromeIn.getLsbD i = decide (i = k)) ∧
    (p = none ↔ ¬ IsPowerOfTwo s.locSyndromeIn.toNat) ∧
    (s.locSyndromeIn.toNat = 0 → p = none) ∧ (s.locSyndromeIn.toNat = 1 → p = some 0) ∧
    (s.locSyndromeIn.toNat = 3 → p = none) ∧ (s.cfg.pl = 0 → p = none) ∧
    (s.locSyndromeIn.toNat = 2 ^ (s.cfg.pl - 1) → s.cfg.pl ≠ 0 → p = some (s.cfg.pl - 1))) ∧
  (errorPositionPort Config.reference (errorLocator Config.reference (BitVec.ofNat _ 4))).toNat = 0b00010 ∧
  (errorPositionPort Config.reference (errorLocator Config.reference (BitVec.ofNat _ 5))).toNat = 0b11111

/-- R41: a located position is below `PL`, so a scan over `[0, PL)` gives the same; exactly `PL` of the `2^PL` syndromes
are located; fed by syndrome_calculator, positions are below `min(PL, M)`; `none` does not mean syndrome 0; the full
tables for `PL` = 3 and 5. -/
def Obligations.LocatorReachAndTables : Prop :=
  (∀ c : Config,
    (∀ s k, errorLocator c s = some k → k < c.pl) ∧
    (∀ s : BitVec c.pl, errorLocator c s = (List.range c.pl).find? fun k => s.toNat == 2 ^ k) ∧
    ((List.range (2 ^ c.pl)).countP fun n => (errorLocator c (BitVec.ofNat c.pl n)).isSome) = c.pl ∧
    (∀ w k, errorLocator c (syndromeCalculator c w) = some k → k < min c.pl c.m) ∧
    (∀ s, errorLocator c s = none ↔ s = 0#c.pl ∨ (s ≠ 0#c.pl ∧ ¬ IsPowerOfTwo s.toNat))) ∧
  (∀ c : Config, c.pl = 3 → (List.range 8).map (fun n => errorLocator c (BitVec.ofNat c.pl n)) =
    [none, some 0, some 1, none, some 2, none, none, none]) ∧
  (∀ c : Config, c.pl = 5 →
    errorLocator c (BitVec.ofNat c.pl 1) = some 0 ∧ errorLocator c (BitVec.ofNat c.pl 2) = some 1 ∧
    errorLocator c (BitVec.ofNat c.pl 4) = some 2 ∧ errorLocator c (BitVec.ofNat c.pl 8) = some 3 ∧
    errorLocator c (BitVec.ofNat c.pl 16) = some 4 ∧
    ∀ n, n < 32 → n ≠ 1 → n ≠ 2 → n ≠ 4 → n ≠ 8 → n ≠ 16 → errorLocator c (BitVec.ofNat c.pl n) = none)

/-! ### hamming_decoder (44_hamming_decoder.md) -/

/-- R42: `DECODE` completes on every state, writes its two outputs only, and is the chain of the other two blocks: the
syndrome that `SYNDROME` delivers for the same codeword, the position that `LOCATE` delivers for that syndrome, the flip
of that bit, and the data field; the worked example. -/
def Obligations.DecodeChainsSyndromeLocateCorrectMask : Prop :=
  (∀ s : State, ∃ (syndrome : BitVec s.cfg.pl) (position : Option Nat) (corrected : BitVec s.cfg.cl) (data : BitVec s.cfg.dl),
    exec .syndrome { s with synCodewordIn := s.decCodewordIn } =
      .next { s with synCodewordIn := s.decCodewordIn, synSyndromeOut := syndrome } ∧
    exec .locate { s with locSyndromeIn := syndrome } =
      .next { s with locSyndromeIn := syndrome, locErrorPosition := errorPositionPort s.cfg position } ∧
    (∀ k, position = some k ↔ syndrome.toNat = 2 ^ k) ∧
    (position = none → corrected = s.decCodewordIn) ∧
    (∀ k, position = some k → ∀ j, j < s.cfg.cl →
      corrected.getLsbD j = Bool.xor (s.decCodewordIn.getLsbD j) (decide (j = k))) ∧
    (∀ i, i < s.cfg.dl → data.getLsbD i = corrected.getLsbD i) ∧
    exec .decode s =
      .next { s with decDataOut := data, decErrorPosition := errorPositionPort s.cfg position }) ∧
  hammingDecoder Config.reference (BitVec.ofNat _ 35) = (BitVec.ofNat _ 39, some 2)

/-- R43: every evaluation of `DECODE` falls in exactly one of the three cases, by the syndrome alone. -/
def Obligations.DecodeFallsInOneOfThreeCases : Prop :=
  (∀ s : State,
    let syndrome := syndromeCalculator s.cfg s.decCodewordIn
    let received := dataField s.cfg s.decCodewordIn
    (syndrome = 0#s.cfg.pl →
      decodeCase s.cfg syndrome = .noErrorDetected ∧
      exec .decode s = .next { s with decDataOut := received, decErrorPosition := errorPositionPort s.cfg none }) ∧
    (∀ k, syndrome.toNat = 2 ^ k →
      k < s.cfg.pl ∧ decodeCase s.cfg syndrome = .located k ∧
      exec .decode s =
        .next { s with decDataOut := received ^^^ oneHot s.cfg.dl k,
                       decErrorPosition := errorPositionPort s.cfg (some k) }) ∧
    (syndrome ≠ 0#s.cfg.pl → ¬ IsPowerOfTwo syndrome.toNat →
      decodeCase s.cfg syndrome = .uncorrectablePattern ∧
      exec .decode s = .next { s with decDataOut := received, decErrorPosition := errorPositionPort s.cfg none })) ∧
  hammingDecoder Config.reference (BitVec.ofNat _ 51) = (BitVec.ofNat _ 51, none) ∧
  hammingDecoder Config.reference (BitVec.ofNat _ 35) = (BitVec.ofNat _ 39, some 2) ∧
  hammingDecoder Config.reference (BitVec.ofNat _ 8208) = (BitVec.ofNat _ 16, none)

/-- R44: the flipped bit is in the data field; the parity field matters only through the syndrome; after the
"correction" check `k` still fails and exactly the checks `i` with `bit(k, i) = 1` change. -/
def Obligations.CorrectionLandsInTheDataField : Prop :=
  (∀ (c : Config) (w : BitVec c.cl) (k : Nat), errorLocator c (syndromeCalculator c w) = some k →
    k < c.dl ∧ natBit k k = false ∧
    (hammingDecoder c w).1 = dataField c w ^^^ oneHot c.dl k ∧
    (∀ i, i < c.pl → (syndromeCalculator c (correct c w (some k))).getLsbD i =
      Bool.xor ((syndromeCalculator c w).getLsbD i) (natBit k i)) ∧
    (syndromeCalculator c (correct c w (some k))).getLsbD k = true) ∧
  (∀ (c : Config) (w : BitVec c.cl), errorLocator c (syndromeCalculator c w) = none →
    (hammingDecoder c w).1 = dataField c w) ∧
  (∀ (c : Config) (w w' : BitVec c.cl), dataField c w = dataField c w' →
    syndromeCalculator c w = syndromeCalculator c w' → hammingDecoder c w = hammingDecoder c w') ∧
  (syndromeCalculator Config.reference (BitVec.ofNat _ 39)).toNat = 6

/-- R45: the integer view of `decode` depends on the bits below `CL` only. -/
def Obligations.DecodeIntegerViewIgnoresHighBits : Prop :=
  (∀ (c : Config) (n : Nat) (v : BitVec c.cl), (∀ j, j < c.cl → v.getLsbD j = natBit n j) →
    decodeInt c n = ((hammingDecoder c v).1.toNat, (hammingDecoder c v).2)) ∧
  decodeInt Config.reference 35 = (39, some 2) ∧ decodeInt Config.reference (35 + 65536) = (39, some 2)

/-- R55: an uncorrectable pattern raises nothing: `DECODE` completes with the data field unmodified and `none`, the very
outputs it gives for syndrome 0; clean codewords and codewords with one flipped bit can fall in the class. -/
def Obligations.UncorrectablePatternRaisesNothing : Prop :=
  (∀ s : State,
    let syndrome := syndromeCalculator s.cfg s.decCodewordIn
    (decodeCase s.cfg syndrome = .uncorrectablePattern ↔ syndrome ≠ 0#s.cfg.pl ∧ ¬ IsPowerOfTwo syndrome.toNat) ∧
    (decodeCase s.cfg syndrome = .uncorrectablePattern ∨ decodeCase s.cfg syndrome = .noErrorDetected →
      exec .decode s =
        .next { s with decDataOut := dataField s.cfg s.decCodewordIn,
                       decErrorPosition := BitVec.allOnes (s.cfg.m + 1) })) ∧
  decodeCase Config.reference (cleanSyndrome Config.reference (BitVec.ofNat _ 16)) = .uncorrectablePattern ∧
  decodeCase Config.reference (syndromeCalculator Config.reference
    (hammingEncoder Config.reference (BitVec.ofNat _ 51) ^^^ oneHot _ 3)) = .uncorrectablePattern

/-! ### The codec as a whole (45_properties.md) -/

/-- R18: a codeword is its data field below its parity field, and nothing else. -/
def Obligations.CodewordIsParityAboveData : Prop :=
  ∀ (c : Config) (w : BitVec c.cl),
    c.cl = c.dl + c.pl ∧
    (∀ i, i < c.dl → (dataField c w).getLsbD i = w.getLsbD i) ∧
    (∀ p, p < c.pl → (parityField c w).getLsbD p = w.getLsbD (c.dl + p)) ∧
    w.toNat = (parityField c w).toNat * 2 ^ c.dl + (dataField c w).toNat

/-- R47, the formula: check `i` of a clean codeword is parity bit `i` exclusive-or every parity bit whose position has index
bit `i` set. -/
def Obligations.CleanSyndromeFormula : Prop :=
  ∀ (c : Config) (d : BitVec c.dl) (i : Nat), i < c.pl →
    let P := fun p => (hammingEncoder c d).getLsbD (c.dl + p)
    (cleanSyndrome c d).getLsbD i = Bool.xor (P i) (xorOver c.pl fun p => natBit (c.dl + p) i && P p)

/-- R47: the round trip `DECODE(ENCODE(d)) = (d, none)` holds exactly when the clean syndrome is no power of two; when it
is `2^k` the result is `(d ^ (1 << k), k)`. The source's unconditional claim fails (`DL = 11`, `d = 8`). -/
def Obligations.RoundTripHoldsUnlessCleanSyndromeIsPowerOfTwo : Prop :=
  (∀ (c : Config) (d : BitVec c.dl),
    (hammingDecoder c (hammingEncoder c d) = (d, none) ↔ ¬ IsPowerOfTwo (cleanSyndrome c d).toNat) ∧
    ∀ k, (cleanSyndrome c d).toNat = 2 ^ k →
      hammingDecoder c (hammingEncoder c d) = (d ^^^ oneHot c.dl k, some k)) ∧
  hammingDecoder Config.reference (hammingEncoder Config.reference (BitVec.ofNat _ 8)) = (BitVec.ofNat _ 12, some 2)

/-- R47, the table's clean-syndrome equations for `DL` = 5, 6 and 11. -/
def Obligations.CleanSyndromeEquations : Prop :=
  ∀ (c : Config) (d : BitVec c.dl),
    let s := fun i => (cleanSyndrome c d).getLsbD i
    let x := fun i => d.getLsbD i
    (c.dl = 5 → s 0 = x 4 ∧ s 1 = x 4 ∧ s 2 = Bool.xor (x 1) (x 2)) ∧
    (c.dl = 6 → s 0 = Bool.xor (Bool.xor (x 1) (x 2)) (x 5) ∧ s 1 = Bool.xor (Bool.xor (x 1) (x 3)) (x 5)) ∧
    (c.dl = 11 →
      s 0 = Bool.xor (Bool.xor (Bool.xor (x 4) (x 5)) (x 6)) (x 7) ∧
      s 1 = Bool.xor (Bool.xor (Bool.xor (Bool.xor (x 1) (x 2)) (x 5)) (x 6)) (x 8) ∧
      s 2 = Bool.xor (Bool.xor (Bool.xor (Bool.xor (Bool.xor (x 2) (x 3)) (x 6)) (x 7)) (x 8)) (x 9) ∧
      s 3 = Bool.xor (Bool.xor (Bool.xor (Bool.xor (Bool.xor (x 1) (x 2)) (x 4)) (x 7)) (x 9)) (x 10) ∧
      s 4 = false)

/-- R47, the table's row for `DL = 5`: the round trip fails exactly for the data words with `d4 = 0` and `d1 != d2`, each of
which comes back as `(d ^ 4, 2)`. -/
def Obligations.RoundTripFailuresForFiveDataBits : Prop :=
  ∀ (c : Config) (d : BitVec c.dl), c.dl = 5 →
    (d.getLsbD 4 = false ∧ d.getLsbD 1 ≠ d.getLsbD 2 →
      hammingDecoder c (hammingEncoder c d) = (d ^^^ BitVec.ofNat c.dl 4, some 2)) ∧
    (d.getLsbD 4 = true ∨ d.getLsbD 1 = d.getLsbD 2 → hammingDecoder c (hammingEncoder c d) = (d, none))

/-- R47, last paragraph: with `PL = 1` the one check always sums to zero and the round trip holds for every data word. -/
def Obligations.OneParityBitRoundTripAlwaysHolds : Prop :=
  ∀ c : Config, c.pl = 1 → ∀ d : BitVec c.dl,
    c.dl % 2 = 1 ∧ cleanSyndrome c d = 0#c.pl ∧ hammingDecoder c (hammingEncoder c d) = (d, none)

/-- R48: the result of decoding a clean codeword with bit `k` flipped, and exactly when it is `(d, k)`. -/
def Obligations.SingleFlipResultLaw : Prop :=
  ∀ (c : Config) (d : BitVec c.dl) (k : Nat), k < c.cl →
    let received := hammingEncoder c d ^^^ oneHot c.cl k
    let t := cleanSyndrome c d ^^^ BitVec.ofNat c.pl (k % 2 ^ c.pl)
    let d' := if k < c.dl then d ^^^ oneHot c.dl k else d
    (∀ j, t.toNat = 2 ^ j → hammingDecoder c received = (d' ^^^ oneHot c.dl j, some j)) ∧
    (¬ IsPowerOfTwo t.toNat → hammingDecoder c received = (d', none)) ∧
    (hammingDecoder c received = (d, some k) ↔ k < c.pl ∧ (cleanSyndrome c d).toNat = 2 ^ k ^^^ k)

/-- R48, consequences for a clean syndrome 0: the flip of bit 0 is not detected, a flip whose low `PL` bits are a power of
two has the wrong bit "corrected", any other flip is not reported; none is ever undone with its position reported. -/
def Obligations.SingleFlipOfZeroSyndromeWordIsNeverUndone : Prop :=
  ∀ (c : Config) (d : BitVec c.dl) (k : Nat), k < c.cl → cleanSyndrome c d = 0#c.pl →
    let received := hammingEncoder c d ^^^ oneHot c.cl k
    let d' := if k < c.dl then d ^^^ oneHot c.dl k else d
    hammingDecoder c received ≠ (d, some k) ∧
    (k = 0 → hammingDecoder c received = (d ^^^ oneHot c.dl 0, none)) ∧
    (∀ j, k % 2 ^ c.pl = 2 ^ j → j ≠ k ∧ hammingDecoder c received = (d' ^^^ oneHot c.dl j, some j)) ∧
    (¬ IsPowerOfTwo (k % 2 ^ c.pl) → hammingDecoder c received = (d', none))

/-- R49: for any error pattern `e`, the received syndrome is `s0(d) ^ SYNDROME(e)`, whose value is the exclusive-or of
`k mod 2^PL` over the set bits `k` of `e`; `DECODE` follows from it, and the worked example is "corrected" wrongly. -/
def Obligations.AnyErrorPatternLaw : Prop :=
  (∀ (c : Config) (d : BitVec c.dl) (e : BitVec c.cl),
    let received := channel c (hammingEncoder c d) e
    let t := cleanSyndrome c d ^^^ syndromeCalculator c e
    syndromeCalculator c received = t ∧
    (syndromeCalculator c e).toNat =
      (List.range c.cl).foldl (fun acc k => if e.getLsbD k then acc ^^^ (k % 2 ^ c.pl) else acc) 0 ∧
    (∀ j, t.toNat = 2 ^ j → hammingDecoder c received = (d ^^^ dataField c e ^^^ oneHot c.dl j, some j)) ∧
    (¬ IsPowerOfTwo t.toNat → hammingDecoder c received = (d ^^^ dataField c e, none))) ∧
  hammingDecoder Config.reference
    (channel Config.reference (hammingEncoder Config.reference (BitVec.ofNat _ 51)) (BitVec.ofNat _ 0b1010)) =
      (BitVec.ofNat _ 59, some 1)

/-- R51: the source's worked example under the rules gives `(39, 2)`, not `(51, 4)`. -/
def Obligations.WorkedExampleGivesThirtyNineAndTwo : Prop :=
  let c := Config.reference
  c.m = 4 ∧ c.parameters = { dataLength := 11, codewordLength := 16, parityLength := 5, mask := 0x7FF } ∧
  hammingEncoder c (BitVec.ofNat _ 0b110011) = BitVec.ofNat _ 51 ∧
  cleanSyndrome c (BitVec.ofNat _ 0b110011) = 0#c.pl ∧
  flipBit c (BitVec.ofNat _ 51) 4 = .next (BitVec.ofNat _ 35) ∧
  syndromeCalculator c (BitVec.ofNat _ 35) = BitVec.ofNat _ 4 ∧
  errorLocator c (BitVec.ofNat _ 4) = some 2 ∧
  hammingDecoder c (BitVec.ofNat _ 35) = (BitVec.ofNat _ 39, some 2)

/-- R50, R52: the source's boundary scenario `DL = 4` and its degenerate construction `DL = 1`. -/
def Obligations.BoundaryScenariosUnderTheRules : Prop :=
  construct true 4 = .refused (.invalidConstruction (.parityLengthZero 4)) ∧
  construct true 1 = .refused (.invalidConstruction (.parityLengthZero 1)) ∧
  (∀ c : Config, construct false 4 = .next c →
    c.cl = 4 ∧ c.pl = 0 ∧ hammingEncoder c (BitVec.ofNat _ 0b1010) = BitVec.ofNat _ 0b1010 ∧
    hammingDecoder c (BitVec.ofNat _ 0b1010) = (BitVec.ofNat _ 0b1010, none) ∧
    hammingDecoder c (BitVec.ofNat _ 0b1011) = (BitVec.ofNat _ 0b1011, none)) ∧
  (∀ c : Config, construct false 1 = .next c →
    c.cl = 1 ∧ c.pl = 0 ∧ ∀ b, b < 2 → hammingEncoder c (BitVec.ofNat _ b) = BitVec.ofNat _ b ∧
      hammingDecoder c (BitVec.ofNat _ b) = (BitVec.ofNat _ b, none))

/-! ### The machine: steps, ports, instances -/

/-- R22, R59: a step evaluates the operation whose tag stands in the state, on ports that all follow their inputs, so on
the state as it is where they already do; and selecting a word of the operation table makes the next step run exactly that
word's operation. The tag is the model's, carried by no wire (log entry 6). -/
def Obligations.StepRunsTheDecodedOperation : Prop :=
  (∀ (s : State) (i : Instr), decodeTag s.op = i → step s = exec i s.settle ∧ (Settled s → step s = exec i s)) ∧
  ∀ (s : State) (nbits w : Nat) (i : Instr), decodeTableWord nbits w = some i →
    decodeTag (s.withFetchWord nbits w).op = i ∧
    s.withFetchWord nbits w = { s with op := encodeInstr i } ∧
    step (s.withFetchWord nbits w) = exec i { s with op := encodeInstr i }.settle ∧
    (Settled s → step (s.withFetchWord nbits w) = exec i { s with op := encodeInstr i })

/-- R22: the tag and the operation determine each other, and no other word is a tag. -/
def Obligations.TagDecodeAndEncodeAgree : Prop :=
  (∀ i : Instr, i.wellFormed = true ∧ decodeTag (encodeInstr i) = i ∧ decodeWord (encodeInstr i).toNat = .ok i) ∧
  (∀ t : Tag, encodeInstr (decodeTag t) = t) ∧
  ∀ w, 4 ≤ w → decodeWord w = .error (.notATag w)

/-- opcode_table.json: the words of the four rows. -/
def Obligations.OperationTableWordsDecode : Prop :=
  decodeTableWord 8 0b00 = some .encode ∧ decodeTableWord 8 0b01 = some .syndrome ∧
  decodeTableWord 8 0b10 = some .locate ∧ decodeTableWord 8 0b11 = some .decode

/-- R56, R8 and the "State written" lines of the four operations: every step of every state answers a next state, in which
nothing but output ports has changed: the elaboration constants and every input port are as they were, and so is the tag.
That a state holds the configuration is the model's choice (log entry 1), and so is the tag and that a step keeps it
(log entry 6). -/
def Obligations.StepAnswersNextAndWritesOutputsOnly : Prop :=
  ∀ s : State, ∃ codeword syndrome position data position',
    step s = .next { s with
      encCodewordOut := codeword, synSyndromeOut := syndrome, locErrorPosition := position,
      decDataOut := data, decErrorPosition := position' }

/-- R7: each operation's outputs are a function of its own input port and the configuration, whatever every other part of
the state holds. -/
def Obligations.OutputsDependOnOwnInputPortOnly : Prop :=
  ∀ s t s' t' : State, s.cfg = t.cfg →
    (s.encDataIn.toNat = t.encDataIn.toNat → exec .encode s = .next s' → exec .encode t = .next t' →
      s'.encCodewordOut.toNat = t'.encCodewordOut.toNat) ∧
    (s.synCodewordIn.toNat = t.synCodewordIn.toNat → exec .syndrome s = .next s' → exec .syndrome t = .next t' →
      s'.synSyndromeOut.toNat = t'.synSyndromeOut.toNat) ∧
    (s.locSyndromeIn.toNat = t.locSyndromeIn.toNat → exec .locate s = .next s' → exec .locate t = .next t' →
      s'.locErrorPosition.toNat = t'.locErrorPosition.toNat) ∧
    (s.decCodewordIn.toNat = t.decCodewordIn.toNat → exec .decode s = .next s' → exec .decode t = .next t' →
      s'.decDataOut.toNat = t'.decDataOut.toNat ∧ s'.decErrorPosition.toNat = t'.decErrorPosition.toNat)

/-- R14: every operation is idempotent. -/
def Obligations.EvaluationIsIdempotent : Prop :=
  ∀ (i : Instr) (s : State), ∃ t, exec i s = .next t ∧ exec i t = .next t

/-- R15 (b), (c): two evaluations of one codec give the same state in either order. -/
def Obligations.EvaluationsCommute : Prop :=
  ∀ (i j : Instr) (s : State), ∃ a b t,
    exec i s = .next a ∧ exec j a = .next t ∧ exec j s = .next b ∧ exec i b = .next t

/-- R15 (a), (c): in any interleaving of any lines on any number of codecs, every codec ends as it would alone, running its
own lines in their order. -/
def Obligations.InterleavingGivesEachInstanceItsOwnResult : Prop :=
  ∀ (schedule : List Event) (all after : List State), runEvents all schedule = .next after →
    after.length = all.length ∧
    ∀ (k : Nat) (s : State), all[k]? = some s →
      ∃ t, s.runLines (linesOf k schedule) = .next t ∧ after[k]? = some t

/-- R15, R56: a schedule whose events name existing codecs and values their ports can carry always runs to its end. -/
def Obligations.EveryFittingScheduleCompletes : Prop :=
  ∀ (schedule : List Event) (all : List State),
    (∀ e, e ∈ schedule → ∃ s, all[e.index]? = some s ∧ e.line.value < 2 ^ inputWidth s.cfg e.line.op) →
    ∃ after, runEvents all schedule = .next after

/-- R59: an evaluation settles its own block, and unsettles none. That output ports are fields which an evaluation writes is
the model's choice (log entry 2). -/
def Obligations.EvaluationSettlesItsBlock : Prop :=
  ∀ (i : Instr) (s t : State), exec i s = .next t →
    BlockSettled i t ∧ ∀ j, BlockSettled j s → BlockSettled j t

/-- R59: a codec is settled exactly when every evaluation leaves it as it is (output ports as fields: log entry 2). -/
def Obligations.SettledIsFixedPointOfEveryEvaluation : Prop :=
  ∀ s : State, Settled s ↔ ∀ i, exec i s = .next s

/-- R23, R41 item 3: no evaluation and no step lets an output port carry a value the spec calls unreachable. -/
def Obligations.StepKeepsOutputsInReach : Prop :=
  (∀ s t : State, OutputsInReach s → step s = .next t → OutputsInReach t) ∧
  ∀ (i : Instr) (s t : State), OutputsInReach s → exec i s = .next t → OutputsInReach t

/-- R11, R23: a codec just built, and the machine after reset, is settled and its outputs are in reach. That the inputs
are zero then, and that reset builds `DL = 11`, are the model's choices (log entries 3 and 4). -/
def Obligations.InitialStateIsSettledAndInReach : Prop :=
  (∀ c : Config, Settled (State.initial c) ∧ OutputsInReach (State.initial c)) ∧
  Settled State.reset ∧ OutputsInReach State.reset ∧
  State.reset.cfg = Config.reference ∧
  State.reset.encCodewordOut.toNat = 0 ∧ State.reset.synSyndromeOut.toNat = 0 ∧
  State.reset.locErrorPosition.toNat = 0b11111 ∧ State.reset.decDataOut.toNat = 0 ∧
  State.reset.decErrorPosition.toNat = 0b11111

/-- R25: `FLIP` complements exactly the named position, for `0 <= k < CL`. That it is refused for any other position is the
model's choice (log entry 10). -/
def Obligations.FlipComplementsOnePosition : Prop :=
  ∀ (c : Config) (w : BitVec c.cl) (k : Nat),
    (k < c.cl → ∃ v, flipBit c w k = .next v ∧
      ∀ j, j < c.cl → v.getLsbD j = Bool.xor (w.getLsbD j) (decide (j = k))) ∧
    (c.cl ≤ k → flipBit c w k = .refused (.noSuchPosition c.cl k))

/-- R25, R5: an operation line presents its value on its block's input port and evaluates that block. The ports of every
block then follow their inputs, so on a settled codec no other block's ports change. That a value no vector of the port
stands for is refused is the model's choice (log entry 10), and the tag written is the model's (log entry 6). -/
def Obligations.OperationLineEvaluatesItsBlock : Prop :=
  ∀ (s : State) (n : Nat),
    (∀ v : BitVec s.cfg.dl, v.toNat = n →
      s.runLine ⟨.encode, n⟩ = .next { s with op := 0#2, encDataIn := v }.settle ∧
      (Settled s → s.runLine ⟨.encode, n⟩ =
        .next { s with op := 0#2, encDataIn := v, encCodewordOut := hammingEncoder s.cfg v })) ∧
    (∀ v : BitVec s.cfg.cl, v.toNat = n →
      s.runLine ⟨.syndrome, n⟩ = .next { s with op := 1#2, synCodewordIn := v }.settle ∧
      (Settled s → s.runLine ⟨.syndrome, n⟩ =
        .next { s with op := 1#2, synCodewordIn := v, synSyndromeOut := syndromeCalculator s.cfg v })) ∧
    (∀ v : BitVec s.cfg.pl, v.toNat = n →
      s.runLine ⟨.locate, n⟩ = .next { s with op := 2#2, locSyndromeIn := v }.settle ∧
      (Settled s → s.runLine ⟨.locate, n⟩ =
        .next { s with op := 2#2, locSyndromeIn := v,
                       locErrorPosition := errorPositionPort s.cfg (errorLocator s.cfg v) })) ∧
    (∀ v : BitVec s.cfg.cl, v.toNat = n →
      s.runLine ⟨.decode, n⟩ = .next { s with op := 3#2, decCodewordIn := v }.settle ∧
      (Settled s → s.runLine ⟨.decode, n⟩ =
        .next { s with op := 3#2, decCodewordIn := v, decDataOut := (hammingDecoder s.cfg v).1,
                       decErrorPosition := errorPositionPort s.cfg (hammingDecoder s.cfg v).2 })) ∧
    (∀ i, 2 ^ inputWidth s.cfg i ≤ n → s.runLine ⟨i, n⟩ = .refused (.valueTooWide (inputWidth s.cfg i) n))

/-- R59, R11: the ports follow their inputs at every moment. Whatever a state holds, the state after a step is settled;
driving an input settles the driven block at once; and no evaluation, no presented or run line, no selection of an operation
and no schedule over many codecs ever leaves a settled codec unsettled. That ports are fields is the model's choice
(log entry 2). -/
def Obligations.PortsFollowTheirInputsAtEveryMoment : Prop :=
  (∀ s t : State, step s = .next t → Settled t) ∧
  (∀ (s : State) (i : Instr) (t : State), Settled s → exec i s = .next t → Settled t) ∧
  (∀ s : State,
    (∀ v, BlockSettled .encode (s.driveEncoder v)) ∧ (∀ v, BlockSettled .syndrome (s.driveSyndromeCalculator v)) ∧
    (∀ v, BlockSettled .locate (s.driveErrorLocator v)) ∧ ∀ v, BlockSettled .decode (s.driveHammingDecoder v)) ∧
  (∀ (s : State) (l : Line), Settled s → Settled (s.present l)) ∧
  (∀ (s : State) (nbits w : Nat), Settled s → Settled (s.withFetchWord nbits w)) ∧
  (∀ (s t : State) (lines : List Line), Settled s → s.runLines lines = .next t → Settled t) ∧
  ∀ (all after : List State) (schedule : List Event),
    (∀ s, s ∈ all → Settled s) → runEvents all schedule = .next after → ∀ s, s ∈ after → Settled s
end

