-- ==== Sys2Proof/Laws/Bits.lean ====
section
/-! SUPPORT. Laws/Bits: what the bit and loop primitives of Machine/Bits do. -/

namespace Sys2Proof.Machine

/-- `bit(n, i)` of the spec is core's bit test. -/
theorem natBit_eq_testBit (n i : Nat) : natBit n i = n.testBit i := by
  simp [natBit, Nat.testBit_eq_decide_div_mod_eq, beq_eq_decide]

theorem natBit_of_lt {n i : Nat} (h : n < 2 ^ i) : natBit n i = false := by
  rw [natBit_eq_testBit]; exact Nat.testBit_lt_two_pow h

@[simp] theorem natBit_zero (i : Nat) : natBit 0 i = false := by simp [natBit_eq_testBit]

/-- No number has its own index as a set bit: `k < 2^k`. -/
theorem natBit_self (k : Nat) : natBit k k = false := natBit_of_lt Nat.lt_two_pow_self

@[simp] theorem loop_zero {α : Type} (init : α) (body : Nat → α → α) : loop 0 init body = init := rfl

@[simp] theorem loop_succ {α : Type} (n : Nat) (init : α) (body : Nat → α → α) :
    loop (n + 1) init body = body n (loop n init body) := rfl

/-- The loop rule: what holds at entry and is kept by each pass holds at exit. -/
theorem loop_invariant {α : Type} (P : Nat → α → Prop) {n : Nat} {init : α} {body : Nat → α → α}
    (entry : P 0 init) (pass : ∀ i x, i < n → P i x → P (i + 1) (body i x)) : P n (loop n init body) := by
  induction n with
  | zero => exact entry
  | succ n ih => exact pass n _ n.lt_succ_self (ih fun i x hi => pass i x (by omega))

/-- The loop is the left fold over `0, 1, ..., n-1`. -/
theorem loop_eq_foldl_range {α : Type} (n : Nat) (init : α) (body : Nat → α → α) :
    loop n init body = (List.range n).foldl (fun x i => body i x) init := by
  induction n with
  | zero => rfl
  | succ n ih => simp [List.range_succ, ih]

theorem oneHot_getLsbD (w k j : Nat) : (oneHot w k).getLsbD j = (decide (j < w) && decide (j = k)) := by
  simp only [oneHot, BitVec.getLsbD_shiftLeft, BitVec.getLsbD_one]
  by_cases h : j = k
  · subst h; by_cases hw : j < w <;> simp [hw]; omega
  · by_cases hk : j < k <;> simp [h, hk]; omega

/-- In range, `1 << k` is the value `2^k`. -/
theorem oneHot_toNat {w k : Nat} (h : k < w) : (oneHot w k).toNat = 2 ^ k := by
  have : 1 < 2 ^ w := Nat.one_lt_two_pow (by omega)
  simp [oneHot, BitVec.toNat_shiftLeft, Nat.mod_eq_of_lt this, Nat.shiftLeft_eq,
    Nat.mod_eq_of_lt (Nat.pow_lt_pow_right (by omega : 1 < 2) h)]

@[simp] theorem xorOver_zero (e : Nat → Bool) : xorOver 0 e = false := rfl

/-- One more member of the set: its bit is exclusive-ored in. -/
theorem xorOver_succ (n : Nat) (e : Nat → Bool) : xorOver (n + 1) e = Bool.xor (xorOver n e) (e n) := by
  simp only [xorOver, List.range_succ, List.countP_append, List.countP_singleton]
  generalize List.countP e (List.range n) = k
  rcases Nat.mod_two_eq_zero_or_one k with h | h <;> cases e n <;> simp [Nat.add_mod, h]

theorem xorOver_congr {n : Nat} {e f : Nat → Bool} (h : ∀ i, i < n → e i = f i) : xorOver n e = xorOver n f := by
  induction n with
  | zero => rfl
  | succ n ih => rw [xorOver_succ, xorOver_succ, ih fun i hi => h i (by omega), h n (by omega)]

/-- The sum of two exclusive-or sums over one range. -/
theorem xorOver_xor (n : Nat) (e f : Nat → Bool) :
    xorOver n (fun i => Bool.xor (e i) (f i)) = Bool.xor (xorOver n e) (xorOver n f) := by
  induction n with
  | zero => rfl
  | succ n ih =>
    simp only [xorOver_succ, ih]
    cases xorOver n e <;> cases xorOver n f <;> cases e n <;> cases f n <;> rfl

@[simp] theorem xorOver_false (n : Nat) : xorOver n (fun _ => false) = false := by
  simp [xorOver]

/-- A sum with one possible non-zero member is that member. -/
theorem xorOver_single {n k : Nat} (e : Nat → Bool) (hk : k < n) :
    xorOver n (fun i => e i && decide (i = k)) = e k := by
  induction n with
  | zero => omega
  | succ n ih =>
    rw [xorOver_succ]
    by_cases h : k = n
    · subst h
      have : xorOver k (fun i => e i && decide (i = k)) = false := by
        rw [xorOver_congr (f := fun _ => false), xorOver_false]
        intro i hi; simp; omega
      simp [this]
    · have hn : (n = k) = False := by simp; omega
      rw [ih (by omega)]; simp [hn]

/-- A range cut in two. -/
theorem xorOver_add (n k : Nat) (e : Nat → Bool) :
    xorOver (n + k) e = Bool.xor (xorOver n e) (xorOver k fun p => e (n + p)) := by
  induction k with
  | zero => simp
  | succ k ih => rw [← Nat.add_assoc, xorOver_succ, xorOver_succ, ih, Bool.xor_assoc]

/-- A loop that exclusive-ors chosen vectors together, bit by bit. -/
theorem loop_xor_getLsbD {w : Nat} (n : Nat) (chosen : Nat → Bool) (v : Nat → BitVec w) (j : Nat) :
    (loop n 0#w fun i acc => if chosen i then acc ^^^ v i else acc).getLsbD j =
      xorOver n fun i => chosen i && (v i).getLsbD j := by
  induction n with
  | zero => simp
  | succ n ih => rw [loop_succ, xorOver_succ, ← ih]; cases chosen n <;> simp

/-- A loop that exclusive-ors chosen bits together. -/
theorem loop_bool_xor (n : Nat) (chosen e : Nat → Bool) :
    (loop n false fun j acc => if chosen j then Bool.xor acc (e j) else acc) =
      xorOver n fun j => chosen j && e j := by
  induction n with
  | zero => rfl
  | succ n ih => rw [loop_succ, xorOver_succ, ← ih]; cases chosen n <;> simp

/-- A loop that sets chosen bits, at positions `off + i`. -/
theorem loop_or_oneHot_getLsbD {w : Nat} (n off : Nat) (chosen : Nat → Bool) (init : BitVec w) (j : Nat) :
    (loop n init fun i acc => if chosen i then acc ||| oneHot w (off + i) else acc).getLsbD j =
      (init.getLsbD j || (decide (j < w) && decide (off ≤ j) && decide (j < off + n) && chosen (j - off))) := by
  induction n with
  | zero =>
    have : ¬ (off ≤ j ∧ j < off) := by omega
    by_cases h : off ≤ j <;> simp_all
  | succ n ih =>
    rw [loop_succ]
    by_cases h : j = off + n
    · subst h
      cases hc : chosen n <;> simp [ih, hc, oneHot_getLsbD]
    · have hlt : (j < off + (n + 1)) ↔ (j < off + n) := by omega
      cases hc : chosen n <;> simp [ih, oneHot_getLsbD, h, hlt]

end Sys2Proof.Machine
end

