-- ==== Sys2Proof/Laws/Layout.lean ====
section
/-! SUPPORT. Laws/Layout: what the layout derivation gives, in the form the other lemmas use. -/

namespace Sys2Proof.Machine

/-- The doubling search: from a power of two, with fuel enough, it stops at a power of two at or above `dl`, and either at
once or at less than twice `dl`. -/
theorem doubleUntil_spec (dl : Nat) : ∀ fuel c, dl ≤ 2 ^ fuel * c →
    ∃ e, doubleUntil dl fuel c = 2 ^ e * c ∧ dl ≤ 2 ^ e * c ∧ ∀ j, j < e → 2 ^ j * c < dl := by
  intro fuel
  induction fuel with
  | zero => intro c h; exact ⟨0, by simp [doubleUntil], h, by omega⟩
  | succ fuel ih =>
    intro c h
    unfold doubleUntil
    split
    · exact ⟨0, by simp, by simpa, by omega⟩
    · rename_i hc
      obtain ⟨e, he, hle, hmin⟩ := ih (2 * c) (by rw [Nat.pow_succ, Nat.mul_assoc] at h; exact h)
      refine ⟨e + 1, by rw [he, Nat.pow_succ, Nat.mul_assoc], by rw [Nat.pow_succ, Nat.mul_assoc]; exact hle, ?_⟩
      intro j hj
      cases j with
      | zero => simpa using hc
      | succ j => have := hmin j (by omega); rwa [Nat.pow_succ, Nat.mul_assoc]

/-- `CL` is `2^M`, at or above `DL`, and no smaller power of two is. -/
theorem codewordLength_spec (dl : Nat) :
    codewordLength dl = 2 ^ indexBits dl ∧ dl ≤ 2 ^ indexBits dl ∧ ∀ j, j < indexBits dl → 2 ^ j < dl := by
  obtain ⟨e, he, hle, hmin⟩ := doubleUntil_spec dl dl 1 (by simpa using Nat.lt_two_pow_self.le)
  have hcl : codewordLength dl = 2 ^ e := by simpa [codewordLength] using he
  have hm : indexBits dl = e := by rw [indexBits, hcl]; exact Nat.log2_two_pow
  rw [hm]
  exact ⟨hcl, by simpa using hle, by simpa using hmin⟩

theorem codewordLength_lt_double {dl : Nat} (h : 1 ≤ dl) : codewordLength dl < 2 * dl := by
  obtain ⟨hcl, _, hmin⟩ := codewordLength_spec dl
  rw [hcl]
  cases hm : indexBits dl with
  | zero => simp; omega
  | succ e => have := hmin e (by omega); rw [Nat.pow_succ]; omega

end Sys2Proof.Machine

namespace Sys2Proof.Config

open Sys2Proof.Machine

/-- A built configuration has a data bit (40_construction.md rule R26). -/
theorem dl_pos (c : Config) : 0 < c.dl := by
  have h := c.built
  rw [constructionError] at h
  split at h
  · cases h
  · omega

theorem cl_eq_two_pow (c : Config) : c.cl = 2 ^ c.m := (codewordLength_spec c.dl).1

theorem dl_le_cl (c : Config) : c.dl ≤ c.cl := by
  rw [cl_eq_two_pow]; exact (codewordLength_spec c.dl).2.1

theorem dl_add_pl (c : Config) : c.dl + c.pl = c.cl := Nat.add_sub_cancel' c.dl_le_cl

theorem pl_lt_dl (c : Config) : c.pl < c.dl := by
  have h1 := codewordLength_lt_double (dl := c.dl) c.dl_pos
  have h2 := c.dl_add_pl
  simp only [cl] at h2
  omega

/-- A position of the codeword fits its `M` index bits. -/
theorem lt_two_pow_m {c : Config} {j : Nat} (h : j < c.cl) : j < 2 ^ c.m := by rwa [← cl_eq_two_pow]

end Sys2Proof.Config
end

