-- ==== Sys2Proof/Laws/Blocks.lean ====
section
/-! SUPPORT. Laws/Blocks: one lemma per block function that says its output bit by bit. -/

namespace Sys2Proof.Machine

/-- The bits of a contribution. -/
theorem contrib_getLsbD (c : Config) (i j : Nat) :
    (contrib c i).getLsbD j =
      (decide (j < c.cl) && (decide (j = i) || (decide (c.dl ≤ j) && natBit i (j - c.dl)))) := by
  rw [contrib, loop_or_oneHot_getLsbD, oneHot_getLsbD, c.dl_add_pl]
  by_cases h : j < c.cl <;> simp [h]

/-- The bits of an encoder output, over the contributions. -/
theorem hammingEncoder_getLsbD (c : Config) (d : BitVec c.dl) (j : Nat) :
    (hammingEncoder c d).getLsbD j = xorOver c.dl fun i => d.getLsbD i && (contrib c i).getLsbD j :=
  loop_xor_getLsbD _ _ _ _

theorem parityCheck_eq (c : Config) (w : BitVec c.cl) (i : Nat) :
    parityCheck c w i = xorOver c.cl fun j => natBit j i && w.getLsbD j :=
  loop_bool_xor _ _ _

/-- The bits of a syndrome. -/
theorem syndromeCalculator_getLsbD (c : Config) (w : BitVec c.cl) (i : Nat) :
    (syndromeCalculator c w).getLsbD i = (decide (i < c.pl) && parityCheck c w i) := by
  have h := loop_or_oneHot_getLsbD (w := c.pl) c.pl 0 (parityCheck c w) 0#c.pl i
  simp only [Nat.zero_add] at h
  rw [syndromeCalculator, h]
  by_cases hi : i < c.pl <;> simp [hi]

/-- The located position is the exponent, and is below `PL`. -/
theorem errorLocator_eq_some {c : Config} {s : BitVec c.pl} {k : Nat} :
    errorLocator c s = some k ↔ s.toNat = 2 ^ k := by
  rw [errorLocator, List.find?_range_eq_some]
  constructor
  · rintro ⟨h, -, -⟩; simpa using h
  · intro h
    refine ⟨by simpa using h, ?_, ?_⟩
    · have hs := s.isLt
      rw [h, Nat.pow_lt_pow_iff_right (by omega)] at hs
      have := c.pl_lt_dl; have := c.dl_le_cl
      simp; omega
    · intro j hj
      have : 2 ^ j < 2 ^ k := Nat.pow_lt_pow_right (by omega) hj
      simp; omega

theorem errorLocator_lt {c : Config} {s : BitVec c.pl} {k : Nat} (h : errorLocator c s = some k) : k < c.pl := by
  have hs := s.isLt
  rwa [errorLocator_eq_some.1 h, Nat.pow_lt_pow_iff_right (by omega)] at hs

@[simp] theorem dataField_getLsbD (c : Config) (w : BitVec c.cl) (i : Nat) :
    (dataField c w).getLsbD i = (decide (i < c.dl) && w.getLsbD i) := by
  simp [dataField, BitVec.getLsbD_extractLsb']

/-- The data field of an exclusive-or. -/
theorem dataField_xor (c : Config) (a b : BitVec c.cl) :
    dataField c (a ^^^ b) = dataField c a ^^^ dataField c b := by
  apply BitVec.eq_of_getLsbD_eq; intro i hi
  simp only [BitVec.getLsbD_xor, dataField_getLsbD, hi, decide_true, Bool.true_and]

end Sys2Proof.Machine
end

