-- ==== Sys2Proof/Laws/State.lean ====
section
/-! SUPPORT. Laws/State: one lemma per field per update. -/

namespace Sys2Proof.Machine.State

variable (s : State)

@[simp] theorem deliverCodeword_cfg (v : BitVec s.cfg.cl) : (s.deliverCodeword v).cfg = s.cfg := rfl
@[simp] theorem deliverCodeword_op (v : BitVec s.cfg.cl) : (s.deliverCodeword v).op = s.op := rfl
@[simp] theorem deliverCodeword_encDataIn (v : BitVec s.cfg.cl) : (s.deliverCodeword v).encDataIn = s.encDataIn := rfl
@[simp] theorem deliverCodeword_encCodewordOut (v : BitVec s.cfg.cl) : (s.deliverCodeword v).encCodewordOut = v := rfl
@[simp] theorem deliverCodeword_synCodewordIn (v : BitVec s.cfg.cl) : (s.deliverCodeword v).synCodewordIn = s.synCodewordIn := rfl
@[simp] theorem deliverCodeword_synSyndromeOut (v : BitVec s.cfg.cl) : (s.deliverCodeword v).synSyndromeOut = s.synSyndromeOut := rfl
@[simp] theorem deliverCodeword_locSyndromeIn (v : BitVec s.cfg.cl) : (s.deliverCodeword v).locSyndromeIn = s.locSyndromeIn := rfl
@[simp] theorem deliverCodeword_locErrorPosition (v : BitVec s.cfg.cl) : (s.deliverCodeword v).locErrorPosition = s.locErrorPosition := rfl
@[simp] theorem deliverCodeword_decCodewordIn (v : BitVec s.cfg.cl) : (s.deliverCodeword v).decCodewordIn = s.decCodewordIn := rfl
@[simp] theorem deliverCodeword_decDataOut (v : BitVec s.cfg.cl) : (s.deliverCodeword v).decDataOut = s.decDataOut := rfl
@[simp] theorem deliverCodeword_decErrorPosition (v : BitVec s.cfg.cl) : (s.deliverCodeword v).decErrorPosition = s.decErrorPosition := rfl

@[simp] theorem deliverSyndrome_cfg (v : BitVec s.cfg.pl) : (s.deliverSyndrome v).cfg = s.cfg := rfl
@[simp] theorem deliverSyndrome_op (v : BitVec s.cfg.pl) : (s.deliverSyndrome v).op = s.op := rfl
@[simp] theorem deliverSyndrome_encDataIn (v : BitVec s.cfg.pl) : (s.deliverSyndrome v).encDataIn = s.encDataIn := rfl
@[simp] theorem deliverSyndrome_encCodewordOut (v : BitVec s.cfg.pl) : (s.deliverSyndrome v).encCodewordOut = s.encCodewordOut := rfl
@[simp] theorem deliverSyndrome_synCodewordIn (v : BitVec s.cfg.pl) : (s.deliverSyndrome v).synCodewordIn = s.synCodewordIn := rfl
@[simp] theorem deliverSyndrome_synSyndromeOut (v : BitVec s.cfg.pl) : (s.deliverSyndrome v).synSyndromeOut = v := rfl
@[simp] theorem deliverSyndrome_locSyndromeIn (v : BitVec s.cfg.pl) : (s.deliverSyndrome v).locSyndromeIn = s.locSyndromeIn := rfl
@[simp] theorem deliverSyndrome_locErrorPosition (v : BitVec s.cfg.pl) : (s.deliverSyndrome v).locErrorPosition = s.locErrorPosition := rfl
@[simp] theorem deliverSyndrome_decCodewordIn (v : BitVec s.cfg.pl) : (s.deliverSyndrome v).decCodewordIn = s.decCodewordIn := rfl
@[simp] theorem deliverSyndrome_decDataOut (v : BitVec s.cfg.pl) : (s.deliverSyndrome v).decDataOut = s.decDataOut := rfl
@[simp] theorem deliverSyndrome_decErrorPosition (v : BitVec s.cfg.pl) : (s.deliverSyndrome v).decErrorPosition = s.decErrorPosition := rfl

@[simp] theorem deliverPosition_cfg (p : Option Nat) : (s.deliverPosition p).cfg = s.cfg := rfl
@[simp] theorem deliverPosition_op (p : Option Nat) : (s.deliverPosition p).op = s.op := rfl
@[simp] theorem deliverPosition_encDataIn (p : Option Nat) : (s.deliverPosition p).encDataIn = s.encDataIn := rfl
@[simp] theorem deliverPosition_encCodewordOut (p : Option Nat) : (s.deliverPosition p).encCodewordOut = s.encCodewordOut := rfl
@[simp] theorem deliverPosition_synCodewordIn (p : Option Nat) : (s.deliverPosition p).synCodewordIn = s.synCodewordIn := rfl
@[simp] theorem deliverPosition_synSyndromeOut (p : Option Nat) : (s.deliverPosition p).synSyndromeOut = s.synSyndromeOut := rfl
@[simp] theorem deliverPosition_locSyndromeIn (p : Option Nat) : (s.deliverPosition p).locSyndromeIn = s.locSyndromeIn := rfl
@[simp] theorem deliverPosition_locErrorPosition (p : Option Nat) : (s.deliverPosition p).locErrorPosition = errorPositionPort s.cfg p := rfl
@[simp] theorem deliverPosition_decCodewordIn (p : Option Nat) : (s.deliverPosition p).decCodewordIn = s.decCodewordIn := rfl
@[simp] theorem deliverPosition_decDataOut (p : Option Nat) : (s.deliverPosition p).decDataOut = s.decDataOut := rfl
@[simp] theorem deliverPosition_decErrorPosition (p : Option Nat) : (s.deliverPosition p).decErrorPosition = s.decErrorPosition := rfl

@[simp] theorem deliverDecoded_cfg (d : BitVec s.cfg.dl) (p : Option Nat) : (s.deliverDecoded d p).cfg = s.cfg := rfl
@[simp] theorem deliverDecoded_op (d : BitVec s.cfg.dl) (p : Option Nat) : (s.deliverDecoded d p).op = s.op := rfl
@[simp] theorem deliverDecoded_encDataIn (d : BitVec s.cfg.dl) (p : Option Nat) : (s.deliverDecoded d p).encDataIn = s.encDataIn := rfl
@[simp] theorem deliverDecoded_encCodewordOut (d : BitVec s.cfg.dl) (p : Option Nat) : (s.deliverDecoded d p).encCodewordOut = s.encCodewordOut := rfl
@[simp] theorem deliverDecoded_synCodewordIn (d : BitVec s.cfg.dl) (p : Option Nat) : (s.deliverDecoded d p).synCodewordIn = s.synCodewordIn := rfl
@[simp] theorem deliverDecoded_synSyndromeOut (d : BitVec s.cfg.dl) (p : Option Nat) : (s.deliverDecoded d p).synSyndromeOut = s.synSyndromeOut := rfl
@[simp] theorem deliverDecoded_locSyndromeIn (d : BitVec s.cfg.dl) (p : Option Nat) : (s.deliverDecoded d p).locSyndromeIn = s.locSyndromeIn := rfl
@[simp] theorem deliverDecoded_locErrorPosition (d : BitVec s.cfg.dl) (p : Option Nat) : (s.deliverDecoded d p).locErrorPosition = s.locErrorPosition := rfl
@[simp] theorem deliverDecoded_decCodewordIn (d : BitVec s.cfg.dl) (p : Option Nat) : (s.deliverDecoded d p).decCodewordIn = s.decCodewordIn := rfl
@[simp] theorem deliverDecoded_decDataOut (d : BitVec s.cfg.dl) (p : Option Nat) : (s.deliverDecoded d p).decDataOut = d := rfl
@[simp] theorem deliverDecoded_decErrorPosition (d : BitVec s.cfg.dl) (p : Option Nat) : (s.deliverDecoded d p).decErrorPosition = errorPositionPort s.cfg p := rfl

@[simp] theorem driveEncoder_cfg (v : BitVec s.cfg.dl) : (s.driveEncoder v).cfg = s.cfg := rfl
@[simp] theorem driveEncoder_op (v : BitVec s.cfg.dl) : (s.driveEncoder v).op = 0#2 := rfl
@[simp] theorem driveEncoder_encDataIn (v : BitVec s.cfg.dl) : (s.driveEncoder v).encDataIn = v := rfl
@[simp] theorem driveEncoder_encCodewordOut (v : BitVec s.cfg.dl) : (s.driveEncoder v).encCodewordOut = hammingEncoder s.cfg v := rfl
@[simp] theorem driveEncoder_synCodewordIn (v : BitVec s.cfg.dl) : (s.driveEncoder v).synCodewordIn = s.synCodewordIn := rfl
@[simp] theorem driveEncoder_synSyndromeOut (v : BitVec s.cfg.dl) : (s.driveEncoder v).synSyndromeOut = s.synSyndromeOut := rfl
@[simp] theorem driveEncoder_locSyndromeIn (v : BitVec s.cfg.dl) : (s.driveEncoder v).locSyndromeIn = s.locSyndromeIn := rfl
@[simp] theorem driveEncoder_locErrorPosition (v : BitVec s.cfg.dl) : (s.driveEncoder v).locErrorPosition = s.locErrorPosition := rfl
@[simp] theorem driveEncoder_decCodewordIn (v : BitVec s.cfg.dl) : (s.driveEncoder v).decCodewordIn = s.decCodewordIn := rfl
@[simp] theorem driveEncoder_decDataOut (v : BitVec s.cfg.dl) : (s.driveEncoder v).decDataOut = s.decDataOut := rfl
@[simp] theorem driveEncoder_decErrorPosition (v : BitVec s.cfg.dl) : (s.driveEncoder v).decErrorPosition = s.decErrorPosition := rfl

@[simp] theorem driveSyndromeCalculator_cfg (v : BitVec s.cfg.cl) : (s.driveSyndromeCalculator v).cfg = s.cfg := rfl
@[simp] theorem driveSyndromeCalculator_op (v : BitVec s.cfg.cl) : (s.driveSyndromeCalculator v).op = 1#2 := rfl
@[simp] theorem driveSyndromeCalculator_encDataIn (v : BitVec s.cfg.cl) : (s.driveSyndromeCalculator v).encDataIn = s.encDataIn := rfl
@[simp] theorem driveSyndromeCalculator_encCodewordOut (v : BitVec s.cfg.cl) : (s.driveSyndromeCalculator v).encCodewordOut = s.encCodewordOut := rfl
@[simp] theorem driveSyndromeCalculator_synCodewordIn (v : BitVec s.cfg.cl) : (s.driveSyndromeCalculator v).synCodewordIn = v := rfl
@[simp] theorem driveSyndromeCalculator_synSyndromeOut (v : BitVec s.cfg.cl) : (s.driveSyndromeCalculator v).synSyndromeOut = syndromeCalculator s.cfg v := rfl
@[simp] theorem driveSyndromeCalculator_locSyndromeIn (v : BitVec s.cfg.cl) : (s.driveSyndromeCalculator v).locSyndromeIn = s.locSyndromeIn := rfl
@[simp] theorem driveSyndromeCalculator_locErrorPosition (v : BitVec s.cfg.cl) : (s.driveSyndromeCalculator v).locErrorPosition = s.locErrorPosition := rfl
@[simp] theorem driveSyndromeCalculator_decCodewordIn (v : BitVec s.cfg.cl) : (s.driveSyndromeCalculator v).decCodewordIn = s.decCodewordIn := rfl
@[simp] theorem driveSyndromeCalculator_decDataOut (v : BitVec s.cfg.cl) : (s.driveSyndromeCalculator v).decDataOut = s.decDataOut := rfl
@[simp] theorem driveSyndromeCalculator_decErrorPosition (v : BitVec s.cfg.cl) : (s.driveSyndromeCalculator v).decErrorPosition = s.decErrorPosition := rfl

@[simp] theorem driveErrorLocator_cfg (v : BitVec s.cfg.pl) : (s.driveErrorLocator v).cfg = s.cfg := rfl
@[simp] theorem driveErrorLocator_op (v : BitVec s.cfg.pl) : (s.driveErrorLocator v).op = 2#2 := rfl
@[simp] theorem driveErrorLocator_encDataIn (v : BitVec s.cfg.pl) : (s.driveErrorLocator v).encDataIn = s.encDataIn := rfl
@[simp] theorem driveErrorLocator_encCodewordOut (v : BitVec s.cfg.pl) : (s.driveErrorLocator v).encCodewordOut = s.encCodewordOut := rfl
@[simp] theorem driveErrorLocator_synCodewordIn (v : BitVec s.cfg.pl) : (s.driveErrorLocator v).synCodewordIn = s.synCodewordIn := rfl
@[simp] theorem driveErrorLocator_synSyndromeOut (v : BitVec s.cfg.pl) : (s.driveErrorLocator v).synSyndromeOut = s.synSyndromeOut := rfl
@[simp] theorem driveErrorLocator_locSyndromeIn (v : BitVec s.cfg.pl) : (s.driveErrorLocator v).locSyndromeIn = v := rfl
@[simp] theorem driveErrorLocator_locErrorPosition (v : BitVec s.cfg.pl) : (s.driveErrorLocator v).locErrorPosition = errorPositionPort s.cfg (errorLocator s.cfg v) := rfl
@[simp] theorem driveErrorLocator_decCodewordIn (v : BitVec s.cfg.pl) : (s.driveErrorLocator v).decCodewordIn = s.decCodewordIn := rfl
@[simp] theorem driveErrorLocator_decDataOut (v : BitVec s.cfg.pl) : (s.driveErrorLocator v).decDataOut = s.decDataOut := rfl
@[simp] theorem driveErrorLocator_decErrorPosition (v : BitVec s.cfg.pl) : (s.driveErrorLocator v).decErrorPosition = s.decErrorPosition := rfl

@[simp] theorem driveHammingDecoder_cfg (v : BitVec s.cfg.cl) : (s.driveHammingDecoder v).cfg = s.cfg := rfl
@[simp] theorem driveHammingDecoder_op (v : BitVec s.cfg.cl) : (s.driveHammingDecoder v).op = 3#2 := rfl
@[simp] theorem driveHammingDecoder_encDataIn (v : BitVec s.cfg.cl) : (s.driveHammingDecoder v).encDataIn = s.encDataIn := rfl
@[simp] theorem driveHammingDecoder_encCodewordOut (v : BitVec s.cfg.cl) : (s.driveHammingDecoder v).encCodewordOut = s.encCodewordOut := rfl
@[simp] theorem driveHammingDecoder_synCodewordIn (v : BitVec s.cfg.cl) : (s.driveHammingDecoder v).synCodewordIn = s.synCodewordIn := rfl
@[simp] theorem driveHammingDecoder_synSyndromeOut (v : BitVec s.cfg.cl) : (s.driveHammingDecoder v).synSyndromeOut = s.synSyndromeOut := rfl
@[simp] theorem driveHammingDecoder_locSyndromeIn (v : BitVec s.cfg.cl) : (s.driveHammingDecoder v).locSyndromeIn = s.locSyndromeIn := rfl
@[simp] theorem driveHammingDecoder_locErrorPosition (v : BitVec s.cfg.cl) : (s.driveHammingDecoder v).locErrorPosition = s.locErrorPosition := rfl
@[simp] theorem driveHammingDecoder_decCodewordIn (v : BitVec s.cfg.cl) : (s.driveHammingDecoder v).decCodewordIn = v := rfl
@[simp] theorem driveHammingDecoder_decDataOut (v : BitVec s.cfg.cl) : (s.driveHammingDecoder v).decDataOut = (hammingDecoder s.cfg v).1 := rfl
@[simp] theorem driveHammingDecoder_decErrorPosition (v : BitVec s.cfg.cl) : (s.driveHammingDecoder v).decErrorPosition = errorPositionPort s.cfg (hammingDecoder s.cfg v).2 := rfl

@[simp] theorem settle_cfg : s.settle.cfg = s.cfg := rfl
@[simp] theorem settle_op : s.settle.op = s.op := rfl
@[simp] theorem settle_encDataIn : s.settle.encDataIn = s.encDataIn := rfl
@[simp] theorem settle_encCodewordOut : s.settle.encCodewordOut = hammingEncoder s.cfg s.encDataIn := rfl
@[simp] theorem settle_synCodewordIn : s.settle.synCodewordIn = s.synCodewordIn := rfl
@[simp] theorem settle_synSyndromeOut : s.settle.synSyndromeOut = syndromeCalculator s.cfg s.synCodewordIn := rfl
@[simp] theorem settle_locSyndromeIn : s.settle.locSyndromeIn = s.locSyndromeIn := rfl
@[simp] theorem settle_locErrorPosition : s.settle.locErrorPosition = errorPositionPort s.cfg (errorLocator s.cfg s.locSyndromeIn) := rfl
@[simp] theorem settle_decCodewordIn : s.settle.decCodewordIn = s.decCodewordIn := rfl
@[simp] theorem settle_decDataOut : s.settle.decDataOut = (hammingDecoder s.cfg s.decCodewordIn).1 := rfl
@[simp] theorem settle_decErrorPosition : s.settle.decErrorPosition = errorPositionPort s.cfg (hammingDecoder s.cfg s.decCodewordIn).2 := rfl

end Sys2Proof.Machine.State
end

