-- ==== Sys2Proof/Laws/Meanings.lean ====
section
/-! SUPPORT. Laws/Meanings: everything an evaluation, a step and a line can do, said once. -/

namespace Sys2Proof.Machine

theorem exec_encode (s : State) :
    exec .encode s = .next { s with encCodewordOut := hammingEncoder s.cfg s.encDataIn } := rfl

theorem exec_syndrome (s : State) :
    exec .syndrome s = .next { s with synSyndromeOut := syndromeCalculator s.cfg s.synCodewordIn } := rfl

theorem exec_locate (s : State) :
    exec .locate s =
      .next { s with locErrorPosition := errorPositionPort s.cfg (errorLocator s.cfg s.locSyndromeIn) } := rfl

theorem exec_decode (s : State) :
    exec .decode s =
      .next { s with decDataOut := (hammingDecoder s.cfg s.decCodewordIn).1,
                     decErrorPosition := errorPositionPort s.cfg (hammingDecoder s.cfg s.decCodewordIn).2 } := rfl

/-- The state an evaluation leads to: `exec` as a total function. -/
def evaluated (i : Instr) (s : State) : State :=
  match i with
  | .encode => { s with encCodewordOut := hammingEncoder s.cfg s.encDataIn }
  | .syndrome => { s with synSyndromeOut := syndromeCalculator s.cfg s.synCodewordIn }
  | .locate => { s with locErrorPosition := errorPositionPort s.cfg (errorLocator s.cfg s.locSyndromeIn) }
  | .decode =>
    { s with decDataOut := (hammingDecoder s.cfg s.decCodewordIn).1,
             decErrorPosition := errorPositionPort s.cfg (hammingDecoder s.cfg s.decCodewordIn).2 }

/-- The inversion lemma of `exec`: it answers this next state and nothing else. -/
theorem exec_eq_next (i : Instr) (s : State) : exec i s = .next (evaluated i s) := by cases i <;> rfl

theorem exec_next_iff {i : Instr} {s t : State} : exec i s = .next t ↔ t = evaluated i s := by
  rw [exec_eq_next]
  exact ⟨fun h => by injection h with h; exact h.symm, fun h => by rw [h]⟩

/-- Once every port follows its input, an evaluation finds nothing to change. -/
@[simp] theorem evaluated_settle (i : Instr) (s : State) : evaluated i s.settle = s.settle := by cases i <;> rfl

/-- The inversion lemma of `step`: whichever block is read, every port follows its input. -/
theorem step_eq_next (s : State) : step s = .next s.settle := by
  rw [step, exec_eq_next, evaluated_settle]

theorem settled_settle (s : State) : Settled s.settle := by intro i; cases i <;> simp [BlockSettled]

/-- `settle` changes nothing exactly where the ports already follow their inputs. -/
theorem settle_eq_self_iff (s : State) : s.settle = s ↔ Settled s := by
  refine ⟨fun h => h ▸ settled_settle s, fun h => ?_⟩
  obtain ⟨hd, hp⟩ := h .decode
  rw [State.settle, ← h .encode, ← h .syndrome, ← h .locate]
  simp only [← hd, ← hp]

@[simp] theorem evaluated_cfg (i : Instr) (s : State) : (evaluated i s).cfg = s.cfg := by cases i <;> rfl

@[simp] theorem present_cfg (s : State) (l : Line) : (s.present l).cfg = s.cfg := by
  obtain ⟨op, v⟩ := l; cases op <;> rfl

/-- A fitting line answers the presented state with every port following its input, any other is refused. -/
theorem runLine_eq (s : State) (l : Line) :
    s.runLine l =
      if l.value < 2 ^ inputWidth s.cfg l.op then .next (s.present l).settle
      else .refused (.valueTooWide (inputWidth s.cfg l.op) l.value) := by
  simp [State.runLine, wellFormedPortValue, step_eq_next]

end Sys2Proof.Machine
end

