-- ==== Sys2Proof/Laws/PerInstr.lean ====
section
/-! SUPPORT. Laws/PerInstr: what holds of every operation as syntax, one lemma per constructor. -/

namespace Sys2Proof.Laws.TagRoundTrip

/-- The operation is well formed and its tag, as a word of the operation table, decodes to it. -/
def Statement (i : Instr) : Prop :=
  i.wellFormed = true ∧ decodeTag (encodeInstr i) = i ∧ decodeTableWord 8 (encodeInstr i).toNat = some i

theorem encode : Statement .encode := by unfold Statement; decide

theorem syndrome : Statement .syndrome := by unfold Statement; decide

theorem locate : Statement .locate := by unfold Statement; decide

theorem decode : Statement .decode := by unfold Statement; decide

end Sys2Proof.Laws.TagRoundTrip
end

