-- ==== Sys2Proof/Tests/Slice0.lean ====
section
/-! SUPPORT. Tests/Slice0: small tests on single steps, with expected results from spec/95_test_vectors.md and the rules'
worked examples, the smoke tests of the checks, and a witness for the hypotheses of each statement that has some. -/

namespace Sys2Proof.Tests

open Sys2Proof Sys2Proof.Machine

def config1 : Config := { dl := 1, guardPL0 := false, built := by decide }
def config3 : Config := { dl := 3, guardPL0 := true, built := by decide }
def config4 : Config := { dl := 4, guardPL0 := false, built := by decide }
def config5 : Config := { dl := 5, guardPL0 := true, built := by decide }
def config6 : Config := { dl := 6, guardPL0 := true, built := by decide }
def config11 : Config := { dl := 11, guardPL0 := false, built := by decide }
def config17 : Config := { dl := 17, guardPL0 := true, built := by decide }

/-- The field `f` of the state after running one line on a codec just built, if it ran. -/
def after (c : Config) (l : Line) (f : State → Nat) : Option Nat :=
  match (State.initial c).runLine l with
  | .next t => some (f t)
  | .fault _ => none
  | .refused _ => none

/-- The codec after a line, or as it was. -/
def ran (c : Config) (l : Line) : State :=
  match (State.initial c).runLine l with
  | .next t => t
  | .fault _ => State.initial c
  | .refused _ => State.initial c

/-! ### The checks refuse ill-formed terms -/

theorem test_tag_word_4_is_ill_formed : wellFormedTagWord 4 = false := by decide

theorem test_data_2048_is_ill_formed_for_11_bits : wellFormedPortValue 11 2048 = false := by decide

theorem test_position_16_is_ill_formed_for_16_bits : wellFormedPosition 16 16 = false := by decide

theorem test_construction_of_0_is_refused : constructionError false 0 = some (.dataLengthZero 0) := by decide

theorem test_construction_of_64_is_refused : constructionError true 64 = some (.parityLengthZero 64) := by decide

/-- 40_construction.md section 5, the row of `DL = 1000`. -/
theorem test_layout_of_1000 : (codewordLength 1000, parityLength 1000, indexBits 1000) = (1024, 24, 10) := by decide

/-! ### Decoding (30_encoding.md rule R22; opcode_table.json) -/

theorem test_decode_encode : decodeTableWord 8 0b00 = some .encode := by decide

theorem test_decode_syndrome : decodeTableWord 8 0b01 = some .syndrome := by decide

theorem test_decode_locate : decodeTableWord 8 0b10 = some .locate := by decide

theorem test_decode_decode : decodeTableWord 8 0b11 = some .decode := by decide

theorem test_decode_rejects_100 : decodeWord 0b100 = .error (.notATag 4) := by rfl

/-! ### Meanings (95_test_vectors.md sections 3 to 6) -/

/-- Section 3.3, the row of 2047. -/
theorem test_encode_all_ones :
    after Config.reference { op := .encode, value := 2047 } (fun t => t.encCodewordOut.toNat) = some 0x5FFF := by decide

/-- Section 3.4, the last row of `DL = 17`, where `PL > M`. -/
theorem test_encode_17 :
    after config17 { op := .encode, value := 131071 } (fun t => t.encCodewordOut.toNat) = some 2228223 := by decide

/-- Section 4.2, only bit 15. -/
theorem test_syndrome_bit_15 :
    after Config.reference { op := .syndrome, value := 32768 } (fun t => t.synSyndromeOut.toNat) = some 15 := by decide

/-- Section 4.1, `DL = 6`, `k = 5`, where `PL < M`. -/
theorem test_syndrome_6 :
    after config6 { op := .syndrome, value := 32 } (fun t => t.synSyndromeOut.toNat) = some 1 := by decide

/-- Section 5.1, syndrome 16. -/
theorem test_locate_16 :
    after Config.reference { op := .locate, value := 16 } (fun t => t.locErrorPosition.toNat) = some 0b00100 := by decide

/-- Section 5.2, syndrome 3. -/
theorem test_locate_two_bits :
    after config5 { op := .locate, value := 3 } (fun t => t.locErrorPosition.toNat) = some 0b1111 := by decide

/-- Section 6.1, data field 30, parity field 0: `26/2`. -/
theorem test_decode_located :
    after config5 { op := .decode, value := 30 } (fun t => 100 * t.decDataOut.toNat + t.decErrorPosition.toNat) =
      some 2602 := by decide

/-- Section 6.4, 8208: `(16, none)`. -/
theorem test_decode_uncorrectable :
    after Config.reference { op := .decode, value := 8208 }
      (fun t => 100 * t.decDataOut.toNat + t.decErrorPosition.toNat) = some 1631 := by decide

/-! ### Ports follow their inputs (70_reset_and_hazards.md rule R59) -/

/-- Section 6.2, 35: `(39, 2)`, on the ports as soon as the input is driven, before any step. -/
theorem test_driven_decoder_shows_its_result_at_once :
    let t := State.reset.driveHammingDecoder (BitVec.ofNat _ 35)
    (t.decDataOut.toNat, t.decErrorPosition.toNat) = (39, 2) := by decide

/-- A step that reads hamming_encoder leaves no other block's port behind its input: section 4.2, only bit 11. -/
theorem test_step_moves_every_port :
    (match step { State.reset with synCodewordIn := BitVec.ofNat _ 2048 } with
      | .next t => some t.synSyndromeOut.toNat
      | .fault _ => none
      | .refused _ => none) = some 11 := by decide

/-! ### Witnesses: states and operands that meet the hypotheses of the statements -/

theorem power_of_two_4 : IsPowerOfTwo 4 := Exists.intro 2 rfl

theorem not_power_of_two_3 : ¬ IsPowerOfTwo 3 := by
  rintro ⟨k, h⟩
  match k, h with
  | 0, h => exact absurd h (by decide)
  | 1, h => exact absurd h (by decide)
  | k + 2, h => rw [Nat.pow_add] at h; omega

theorem not_power_of_two_0 : ¬ IsPowerOfTwo 0 := by
  rintro ⟨k, h⟩
  exact absurd h (Nat.two_pow_pos k).ne

theorem settled_reset : Settled State.reset := by
  intro i
  cases i <;> first | rfl | exact ⟨rfl, rfl⟩

theorem witness_ConstructRefusesByCauseAndBuildsTheRest :
    ((3 ≠ 0) ∧ (true = false ∨ ¬ IsPowerOfTwo 3)) ∧ ((1 ≠ 0) ∧ (false = false ∨ ¬ IsPowerOfTwo 1)) ∧
      Config.reference.guardPL0 = true :=
  ⟨⟨by decide, .inr not_power_of_two_3⟩, ⟨by decide, .inl rfl⟩, rfl⟩

theorem witness_CodewordLengthIsLeastPowerOfTwo :
    1 ≤ 1 ∧ codewordLength 1 = 2 ^ 0 ∧ 1 ≤ 5 ∧ 5 ≠ 1 ∧ codewordLength 5 = 2 ^ Nat.size (5 - 1) := by decide

theorem witness_ParityLengthIsTheRestOfTheCodeword : 1 ≤ 3 ∧ 3 ≤ 3 ∧ parityLength 3 ≤ 3 - 2 ∧ parityLength 1 = 0 := by
  decide

theorem witness_MaskSelectsTheDataField : 10 < Config.reference.cl ∧ 11 < Config.reference.cl := by decide

theorem witness_IndexBitsIsLogOfCodewordLength :
    1 ≤ 1 ∧ 2 ^ indexBits 1 = codewordLength 1 ∧ 15 < codewordLength 11 := by decide

theorem witness_EqualDataLengthsGiveEqualCodecs : Config.reference.dl = config11.dl ∧ Config.reference ≠ config11 := by
  decide

theorem witness_DegenerateCodecIsTheIdentity :
    IsPowerOfTwo 4 ∧ (State.initial config4).cfg.pl = 0 ∧ config4.dl = 4 := ⟨power_of_two_4, by decide, rfl⟩

theorem witness_ContributionSetsItsDataBitAndItsParityBits :
    0 < config6.dl ∧ 5 < config6.dl ∧ 1 < config6.pl ∧ config6.m ≤ 3 ∧ config6.dl = 6 := by decide

theorem witness_EncodeDeliversTheXorOfContributions :
    (List.range (State.initial config3).cfg.dl).reverse.Perm (List.range (State.initial config3).cfg.dl) ∧
      (State.initial config3).encDataIn.toNat = 0 ∧ (ran config3 { op := .encode, value := 1 }).encDataIn.toNat = 1 ∧
      (State.initial config4).cfg.pl = 0 := ⟨List.reverse_perm _, by decide, by decide, by decide⟩

theorem witness_EncodeClosedForm : 10 < State.reset.cfg.dl ∧ 4 < State.reset.cfg.pl := by decide

theorem witness_EncodeIsRecoverableInjectiveLinear :
    hammingEncoder config3 (BitVec.ofNat _ 7) = hammingEncoder config3 (BitVec.ofNat _ 7) := rfl

theorem witness_EncodeParityReach :
    4 ≤ 4 ∧ Config.reference.m = 4 ∧ 10 < Config.reference.dl ∧ 3 < Config.reference.pl ∧ natBit 10 3 = true := by decide

theorem witness_EncodeParityEquations : config3.dl = 3 ∧ config5.dl = 5 ∧ config6.dl = 6 ∧ config11.dl = 11 := by decide

theorem witness_EncodeIntegerViewRefusesWideData :
    (BitVec.ofNat Config.reference.dl 2047).toNat = 2047 ∧ 2 ^ Config.reference.dl ≤ 2048 := by decide

theorem witness_SyndromeDeliversTheParityChecks :
    State.reset.synCodewordIn.toNat = 0 ∧ 4 < State.reset.cfg.pl ∧ State.reset.cfg.m ≤ 4 ∧
      (State.initial config4).cfg.pl = 0 := by decide

theorem witness_SyndromeSingleBitLaw :
    0 < config6.cl ∧ 1 < config6.cl ∧ 5 < config6.cl ∧ 5 % 2 ^ config6.pl = 1 % 2 ^ config6.pl ∧ 1 < config6.pl := by decide

theorem witness_SyndromeCoverSizes : 3 < Config.reference.m ∧ Config.reference.m ≤ 4 := by decide

theorem witness_SyndromeIntegerViewIgnoresHighBits :
    ∀ j, j < config3.cl → (BitVec.ofNat config3.cl 5).getLsbD j = natBit (5 + 16) j := by decide

theorem witness_ErrorPositionPortIsTwosComplement :
    0 < Config.reference.cl ∧ 15 < Config.reference.cl ∧
      (∀ k, (some 15 : Option Nat) = some k → k < Config.reference.cl) ∧
      errorLocator Config.reference (BitVec.ofNat _ 16) = some 4 :=
  ⟨by decide, by decide, by rintro k ⟨⟩; decide, by decide⟩

theorem witness_LocateDeliversTheExponentOfAPowerOfTwo :
    (ran Config.reference { op := .locate, value := 0 }).locSyndromeIn.toNat = 0 ∧
    (ran Config.reference { op := .locate, value := 1 }).locSyndromeIn.toNat = 1 ∧
    (ran Config.reference { op := .locate, value := 3 }).locSyndromeIn.toNat = 3 ∧
    (ran Config.reference { op := .locate, value := 16 }).locSyndromeIn.toNat =
      2 ^ ((ran Config.reference { op := .locate, value := 16 }).cfg.pl - 1) ∧
    (ran Config.reference { op := .locate, value := 16 }).cfg.pl ≠ 0 ∧ (State.initial config4).cfg.pl = 0 := by decide

theorem witness_LocatorReachAndTables :
    errorLocator Config.reference (BitVec.ofNat _ 16) = some 4 ∧
    errorLocator Config.reference (syndromeCalculator Config.reference (BitVec.ofNat _ 256)) = some 3 ∧
    config5.pl = 3 ∧ Config.reference.pl = 5 ∧ 31 < 32 := by decide

theorem witness_DecodeChainsSyndromeLocateCorrectMask :
    errorLocator Config.reference (syndromeCalculator Config.reference (BitVec.ofNat _ 35)) = some 2 ∧
    errorLocator Config.reference (syndromeCalculator Config.reference (BitVec.ofNat _ 51)) = none := by decide

theorem witness_DecodeFallsInOneOfThreeCases :
    syndromeCalculator config5 (ran config5 { op := .decode, value := 0 }).decCodewordIn = 0#config5.pl ∧
    (syndromeCalculator config5 (ran config5 { op := .decode, value := 30 }).decCodewordIn).toNat = 2 ^ 2 ∧
    (syndromeCalculator config5 (ran config5 { op := .decode, value := 8 }).decCodewordIn).toNat = 3 ∧
    ¬ IsPowerOfTwo 3 := ⟨by decide, by decide, by decide, not_power_of_two_3⟩

theorem witness_CorrectionLandsInTheDataField :
    errorLocator Config.reference (syndromeCalculator Config.reference (BitVec.ofNat _ 35)) = some 2 ∧
    errorLocator Config.reference (syndromeCalculator Config.reference (BitVec.ofNat _ 51)) = none ∧
    (BitVec.ofNat Config.reference.cl 0 : BitVec Config.reference.cl) ≠ BitVec.ofNat Config.reference.cl 0xF000 ∧
    dataField Config.reference (BitVec.ofNat _ 0) = dataField Config.reference (BitVec.ofNat _ 0xF000) ∧
    syndromeCalculator Config.reference (BitVec.ofNat _ 0) = syndromeCalculator Config.reference (BitVec.ofNat _ 0xF000) := by
  decide

theorem witness_DecodeIntegerViewIgnoresHighBits :
    ∀ j, j < config3.cl → (BitVec.ofNat config3.cl 8).getLsbD j = natBit (8 + 16) j := by decide

theorem witness_UncorrectablePatternRaisesNothing :
    decodeCase config5 (syndromeCalculator config5 (ran config5 { op := .decode, value := 8 }).decCodewordIn) =
      .uncorrectablePattern ∧
    decodeCase config5 (syndromeCalculator config5 (State.initial config5).decCodewordIn) = .noErrorDetected := by decide

theorem witness_CodewordIsParityAboveData : 10 < Config.reference.dl ∧ 4 < Config.reference.pl := by decide

theorem witness_CleanSyndromeFormula : 0 < Config.reference.pl ∧ 4 < Config.reference.pl := by decide

theorem witness_RoundTripHoldsUnlessCleanSyndromeIsPowerOfTwo :
    (cleanSyndrome Config.reference (BitVec.ofNat _ 8)).toNat = 2 ^ 2 := by decide

theorem witness_CleanSyndromeEquations : config5.dl = 5 ∧ config6.dl = 6 ∧ config11.dl = 11 := by decide

theorem witness_RoundTripFailuresForFiveDataBits :
    config5.dl = 5 ∧ (BitVec.ofNat config5.dl 2).getLsbD 4 = false ∧
      (BitVec.ofNat config5.dl 2).getLsbD 1 ≠ (BitVec.ofNat config5.dl 2).getLsbD 2 ∧
      (BitVec.ofNat config5.dl 16).getLsbD 4 = true ∧
      (BitVec.ofNat config5.dl 6).getLsbD 1 = (BitVec.ofNat config5.dl 6).getLsbD 2 := by decide

theorem witness_OneParityBitRoundTripAlwaysHolds : config3.pl = 1 := by decide

theorem witness_SingleFlipResultLaw :
    1 < Config.reference.cl ∧ 15 < Config.reference.cl ∧
      (cleanSyndrome Config.reference (BitVec.ofNat _ 18) ^^^
        BitVec.ofNat Config.reference.pl (1 % 2 ^ Config.reference.pl)).toNat = 2 ^ 1 ∧
      (cleanSyndrome Config.reference (BitVec.ofNat _ 0) ^^^
        BitVec.ofNat Config.reference.pl (3 % 2 ^ Config.reference.pl)).toNat = 3 ∧ ¬ IsPowerOfTwo 3 :=
  ⟨by decide, by decide, by decide, by decide, not_power_of_two_3⟩

theorem witness_SingleFlipOfZeroSyndromeWordIsNeverUndone :
    cleanSyndrome Config.reference (BitVec.ofNat _ 51) = 0#Config.reference.pl ∧ 0 < Config.reference.cl ∧
      4 < Config.reference.cl ∧ 4 % 2 ^ Config.reference.pl = 2 ^ 2 ∧ 3 % 2 ^ Config.reference.pl = 3 ∧ ¬ IsPowerOfTwo 3 :=
  ⟨by decide, by decide, by decide, by decide, by decide, not_power_of_two_3⟩

theorem witness_AnyErrorPatternLaw :
    (cleanSyndrome Config.reference (BitVec.ofNat _ 51) ^^^
      syndromeCalculator Config.reference (BitVec.ofNat _ 0b1010)).toNat = 2 ^ 1 ∧
    (cleanSyndrome Config.reference (BitVec.ofNat _ 51) ^^^
      syndromeCalculator Config.reference (BitVec.ofNat _ 0b110)).toNat = 3 ∧ ¬ IsPowerOfTwo 3 :=
  ⟨by decide, by decide, not_power_of_two_3⟩

theorem witness_BoundaryScenariosUnderTheRules :
    construct false 4 = .next config4 ∧ construct false 1 = .next config1 := ⟨rfl, rfl⟩

theorem witness_StepRunsTheDecodedOperation :
    decodeTag State.reset.op = .encode ∧ Settled State.reset ∧ decodeTableWord 8 3 = some .decode :=
  ⟨by decide, settled_reset, by decide⟩

theorem witness_TagDecodeAndEncodeAgree : 4 ≤ 4 ∧ decodeWord 4 = .error (.notATag 4) := ⟨by decide, rfl⟩

theorem witness_OutputsDependOnOwnInputPortOnly :
    State.reset.cfg = (ran Config.reference { op := .encode, value := 51 }).cfg ∧
    State.reset.synCodewordIn.toNat = (ran Config.reference { op := .encode, value := 51 }).synCodewordIn.toNat ∧
    exec .syndrome State.reset = .next State.reset ∧
    State.reset ≠ ran Config.reference { op := .encode, value := 51 } := ⟨rfl, rfl, rfl, by decide⟩

theorem witness_InterleavingGivesEachInstanceItsOwnResult :
    runEvents [State.reset, State.initial config5]
      [{ index := 1, line := { op := .encode, value := 22 } }, { index := 0, line := { op := .encode, value := 51 } }] =
        .next [ran Config.reference { op := .encode, value := 51 }, ran config5 { op := .encode, value := 22 }] ∧
    [State.reset, State.initial config5][1]? = some (State.initial config5) := ⟨rfl, rfl⟩

theorem witness_EveryFittingScheduleCompletes :
    ∀ e, e ∈ [({ index := 0, line := { op := .encode, value := 2047 } } : Event)] →
      ∃ s, [State.reset][e.index]? = some s ∧ e.line.value < 2 ^ inputWidth s.cfg e.line.op := by
  intro e he
  rw [List.mem_singleton] at he
  subst he
  exact ⟨State.reset, rfl, by decide⟩

theorem witness_EvaluationSettlesItsBlock :
    exec .encode State.reset = .next State.reset ∧ BlockSettled .decode State.reset := ⟨rfl, rfl, rfl⟩

theorem witness_SettledIsFixedPointOfEveryEvaluation : exec .decode State.reset = .next State.reset := rfl

theorem witness_PortsFollowTheirInputsAtEveryMoment :
    Settled State.reset ∧ step State.reset = .next State.reset ∧ exec .locate State.reset = .next State.reset ∧
    State.reset.runLines [{ op := .encode, value := 51 }] = .next (ran Config.reference { op := .encode, value := 51 }) ∧
    (∀ s, s ∈ [State.reset] → Settled s) ∧
    runEvents [State.reset] [{ index := 0, line := { op := .encode, value := 51 } }] =
      .next [ran Config.reference { op := .encode, value := 51 }] := by
  refine ⟨settled_reset, rfl, rfl, rfl, fun s h => ?_, rfl⟩
  rw [List.mem_singleton.1 h]
  exact settled_reset

theorem witness_StepKeepsOutputsInReach :
    OutputsInReach (State.initial config3) ∧ step (State.initial config3) = .next (State.initial config3) ∧
      exec .decode (State.initial config3) = .next (State.initial config3) := by
  have hm : config3.m = 2 := by decide
  have hp : config3.pl = 1 := by decide
  refine ⟨⟨?_, ?_, .inl (by decide), .inl (by decide)⟩, rfl, rfl⟩
  · intro p h1 h2
    have h1 : config3.m ≤ p := h1
    have h2 : p < config3.pl := h2
    omega
  · intro i h1 h2
    have h1 : config3.m ≤ i := h1
    have h2 : i < config3.pl := h2
    omega

theorem witness_FlipComplementsOnePosition : 15 < Config.reference.cl ∧ Config.reference.cl ≤ 16 := by decide

theorem witness_OperationLineEvaluatesItsBlock :
    Settled State.reset ∧
    (BitVec.ofNat State.reset.cfg.dl 2047).toNat = 2047 ∧ (BitVec.ofNat State.reset.cfg.cl 65535).toNat = 65535 ∧
    (BitVec.ofNat State.reset.cfg.pl 31).toNat = 31 ∧ 2 ^ inputWidth State.reset.cfg .encode ≤ 2048 ∧
    2 ^ inputWidth State.reset.cfg .decode ≤ 65536 :=
  ⟨settled_reset, by decide, by decide, by decide, by decide, by decide⟩

end Sys2Proof.Tests
end

section
/-! SUPPORT. The error position on its port: one lemma per way of reading the port (30_encoding.md rule R20). -/

namespace Sys2Proof.Machine

/-- `none` sets the sign bit of its port. -/
theorem errorPositionPort_none_getLsbD_m (c : Config) : (errorPositionPort c none).getLsbD c.m = true := by
  simp [errorPositionPort]

theorem errorPositionPort_none_toInt (c : Config) :
    (errorPositionPort c none).toInt = errorPositionInt none := by
  simp [errorPositionPort, errorPositionInt, BitVec.toInt_allOnes]

/-- A position of the codeword fits the port, so the port has its value. -/
theorem errorPositionPort_some_toNat {c : Config} {k : Nat} (h : k < c.cl) :
    (errorPositionPort c (some k)).toNat = k := by
  have hk : k < 2 ^ c.m := Config.lt_two_pow_m h
  exact Nat.mod_eq_of_lt (hk.trans (Nat.pow_lt_pow_succ (by omega)))

/-- A position of the codeword leaves the sign bit clear: it fits the `M` bits below. -/
theorem errorPositionPort_some_getLsbD_m {c : Config} {k : Nat} (h : k < c.cl) :
    (errorPositionPort c (some k)).getLsbD c.m = false := by
  rw [← BitVec.testBit_toNat, errorPositionPort_some_toNat h]
  exact Nat.testBit_lt_two_pow (Config.lt_two_pow_m h)

/-- The `M` bits below the sign bit carry the position. -/
theorem errorPositionPort_some_extractLsb'_toNat {c : Config} {k : Nat} (h : k < c.cl) :
    ((errorPositionPort c (some k)).extractLsb' 0 c.m).toNat = k := by
  rw [BitVec.extractLsb'_toNat, errorPositionPort_some_toNat h, Nat.shiftRight_zero]
  exact Nat.mod_eq_of_lt (Config.lt_two_pow_m h)

/-- Below the sign bit the signed and the unsigned value of a port agree. -/
theorem errorPositionPort_some_toInt {c : Config} {k : Nat} (h : k < c.cl) :
    (errorPositionPort c (some k)).toInt = errorPositionInt (some k) := by
  have hk : 2 * k < 2 ^ (c.m + 1) := by
    have := Config.lt_two_pow_m h
    rw [Nat.pow_succ]; omega
  rw [BitVec.toInt_eq_toNat_of_lt (by rwa [errorPositionPort_some_toNat h]), errorPositionPort_some_toNat h]
  rfl

/-- The sign bit of the port of a legal position says whether there is none. -/
theorem nothingLocated_errorPositionPort {c : Config} {p : Option Nat} (h : ∀ k, p = some k → k < c.cl) :
    nothingLocated c (errorPositionPort c p) = p.isNone := by
  cases p with
  | none => exact errorPositionPort_none_getLsbD_m c
  | some k => exact errorPositionPort_some_getLsbD_m (h k rfl)

/-- A legal position is read back from its port. -/
theorem errorPositionOfPort_errorPositionPort {c : Config} {p : Option Nat} (h : ∀ k, p = some k → k < c.cl) :
    errorPositionOfPort c (errorPositionPort c p) = p := by
  cases p with
  | none => rw [errorPositionOfPort, errorPositionPort_none_getLsbD_m, if_pos rfl]
  | some k =>
    have hk : k < c.cl := h k rfl
    rw [errorPositionOfPort, errorPositionPort_some_getLsbD_m hk, if_neg Bool.false_ne_true,
      errorPositionPort_some_toNat hk]

/-- Settles O20: a codeword position is below `2^M`, so it leaves bit `M` of its port clear, and `none` sets it; the
locator's positions are below `PL`, which is below `CL`. -/
theorem errorPositionPortIsTwosComplement : Obligations.ErrorPositionPortIsTwosComplement := by
  unfold Obligations.ErrorPositionPortIsTwosComplement
  intro c
  refine ⟨rfl, errorPositionPort_none_toInt c, rfl, ?_, ?_, ?_, c.pl_lt_dl.trans_le c.dl_le_cl⟩
  · intro k hk
    exact ⟨errorPositionPort_some_getLsbD_m hk, errorPositionPort_some_extractLsb'_toNat hk,
      errorPositionPort_some_toInt hk, rfl⟩
  · intro p hp
    exact ⟨errorPositionOfPort_errorPositionPort hp, nothingLocated_errorPositionPort hp⟩
  · intro s k hk
    exact errorLocator_lt hk

end Sys2Proof.Machine
end

section
/-! SUPPORT. The codeword layout as a function of the data length (40_construction.md rules R27, R28, R30). -/

namespace Sys2Proof.Machine

theorem codewordLength_eq_two_pow (dl : Nat) : codewordLength dl = 2 ^ indexBits dl := (codewordLength_spec dl).1

theorem le_codewordLength (dl : Nat) : dl ≤ codewordLength dl := by
  rw [codewordLength_eq_two_pow]; exact (codewordLength_spec dl).2.1

/-- `M` is the least exponent of a power of two at or above `DL`. -/
theorem indexBits_le_iff {dl j : Nat} : indexBits dl ≤ j ↔ dl ≤ 2 ^ j := by
  obtain ⟨-, hle, hmin⟩ := codewordLength_spec dl
  constructor
  · intro h; exact hle.trans (Nat.pow_le_pow_right (by omega) h)
  · intro h; by_contra hj; exact absurd (hmin j (by omega)) (by omega)

/-- `M` is the number of binary digits of `DL - 1`. -/
theorem indexBits_eq_size (dl : Nat) : indexBits dl = Nat.size (dl - 1) := by
  refine eq_of_forall_ge_iff fun j => ?_
  have := Nat.two_pow_pos j
  rw [indexBits_le_iff, Nat.size_le]
  omega

theorem codewordLength_eq_self_iff {dl : Nat} : codewordLength dl = dl ↔ IsPowerOfTwo dl := by
  constructor
  · intro h; exact ⟨indexBits dl, by rw [← codewordLength_eq_two_pow, h]⟩
  · rintro ⟨k, rfl⟩
    refine Nat.le_antisymm ?_ (le_codewordLength _)
    rw [codewordLength_eq_two_pow]
    exact Nat.pow_le_pow_right (by omega) (indexBits_le_iff.2 le_rfl)

theorem add_parityLength (dl : Nat) : dl + parityLength dl = codewordLength dl :=
  Nat.add_sub_cancel' (le_codewordLength dl)

theorem parityLength_eq_zero_iff {dl : Nat} : parityLength dl = 0 ↔ IsPowerOfTwo dl := by
  have := add_parityLength dl
  rw [← codewordLength_eq_self_iff]
  omega

theorem parityLength_lt {dl : Nat} (h : 1 ≤ dl) : parityLength dl < dl := by
  have := add_parityLength dl
  have := codewordLength_lt_double h
  omega

/-- From two data bits on a position has an index bit, so the codeword length is even. -/
theorem two_dvd_codewordLength {dl : Nat} (h : 2 ≤ dl) : 2 ∣ codewordLength dl := by
  have hm : indexBits dl ≠ 0 := fun h0 => by
    have : dl ≤ 2 ^ 0 := indexBits_le_iff.1 h0.le
    omega
  rw [codewordLength_eq_two_pow]
  exact dvd_pow_self 2 hm

/-- The codeword length is even and below the even number `2 * DL`, so it is below it by two. -/
theorem parityLength_le_sub_two {dl : Nat} (h : 2 ≤ dl) : parityLength dl ≤ dl - 2 := by
  have := add_parityLength dl
  have := codewordLength_lt_double (dl := dl) (by omega)
  have := two_dvd_codewordLength h
  omega

/-- Settles O2: `M` is the least exponent with `DL <= 2^M`, and so is the size of `DL - 1`. -/
theorem codewordLengthIsLeastPowerOfTwo : Obligations.CodewordLengthIsLeastPowerOfTwo := by
  unfold Obligations.CodewordLengthIsLeastPowerOfTwo
  refine ⟨fun dl hdl => ⟨?least, ?one, ?size, codewordLength_eq_self_iff, le_codewordLength dl,
    codewordLength_lt_double hdl⟩, by decide, by decide, by decide, by decide⟩
  case least =>
    exact ⟨indexBits dl, codewordLength_eq_two_pow dl, indexBits_le_iff.1 le_rfl, fun _ => indexBits_le_iff.2⟩
  case one => rintro rfl; rfl
  case size => intro _; rw [codewordLength_eq_two_pow, indexBits_eq_size]

/-- Settles O3: the bounds are those of `CL` less `DL`, and the parity of `CL` gives the last one. -/
theorem parityLengthIsTheRestOfTheCodeword : Obligations.ParityLengthIsTheRestOfTheCodeword := by
  unfold Obligations.ParityLengthIsTheRestOfTheCodeword
  refine ⟨fun dl hdl => ?_, by decide, by decide, by decide, by decide⟩
  exact ⟨add_parityLength dl, parityLength_lt hdl, parityLength_eq_zero_iff,
    fun h => parityLength_le_sub_two (by omega)⟩

/-- Settles O5: `CL` is `2^M` by the doubling search. -/
theorem indexBitsIsLogOfCodewordLength : Obligations.IndexBitsIsLogOfCodewordLength := by
  unfold Obligations.IndexBitsIsLogOfCodewordLength
  refine ⟨fun dl _ => ⟨(codewordLength_eq_two_pow dl).symm, fun k => ?_⟩, by decide⟩
  rw [codewordLength_eq_two_pow]

end Sys2Proof.Machine
end

section
/-! SUPPORT. Construction: its check as one condition, and what `construct` and `CONFIG` answer in each case
(40_construction.md rules R26, R31; 60_exceptions.md rule R54). -/

namespace Sys2Proof.Machine

theorem constructionError_zero (guard : Bool) : constructionError guard 0 = some (.dataLengthZero 0) := rfl

theorem IsPowerOfTwo.ne_zero {n : Nat} : IsPowerOfTwo n → n ≠ 0 := by
  rintro ⟨k, rfl⟩; exact (Nat.two_pow_pos k).ne'

/-- Under the guard a power of two is refused by the second cause. -/
theorem constructionError_of_isPowerOfTwo {dl : Nat} (h : IsPowerOfTwo dl) :
    constructionError true dl = some (.parityLengthZero dl) := by
  simp [constructionError, h.ne_zero, parityLength_eq_zero_iff.2 h]

/-- The construction check passes exactly for a data bit and, under the guard, a parity bit. -/
theorem constructionError_eq_none_iff {guard : Bool} {dl : Nat} :
    constructionError guard dl = none ↔ dl ≠ 0 ∧ (guard = true → ¬ IsPowerOfTwo dl) := by
  rw [← parityLength_eq_zero_iff]
  by_cases h0 : dl = 0
  · simp [constructionError, h0]
  · cases guard <;> simp [constructionError, h0]

theorem construct_of_error {guard : Bool} {dl : Nat} {reason : ConstructionError}
    (h : constructionError guard dl = some reason) :
    construct guard dl = .refused (.invalidConstruction reason) := by
  unfold construct
  split
  · rename_i h0; rw [h] at h0; cases h0
  · rename_i h0; rw [h] at h0; cases h0; rfl

theorem construct_of_built {guard : Bool} {dl : Nat} (h : constructionError guard dl = none) :
    construct guard dl = .next { dl := dl, guardPL0 := guard, built := h } := by
  unfold construct
  split
  · rfl
  · rename_i h0; rw [h] at h0; cases h0

theorem configure_of_error {guard : Bool} {dl : Nat} {reason : ConstructionError}
    (h : constructionError guard dl = some reason) :
    State.configure guard dl = .refused (.invalidConstruction reason) := by
  rw [State.configure, construct_of_error h]

theorem configure_of_built {guard : Bool} {dl : Nat} (h : constructionError guard dl = none) :
    State.configure guard dl = .next (State.initial { dl := dl, guardPL0 := guard, built := h }) := by
  rw [State.configure, construct_of_built h]

/-- Settles O1: the check passes exactly for the configurations the rule builds, and a state's configuration carries the
proof that it passed. -/
theorem constructRefusesByCauseAndBuildsTheRest : Obligations.ConstructRefusesByCauseAndBuildsTheRest := by
  unfold Obligations.ConstructRefusesByCauseAndBuildsTheRest
  refine ⟨fun guard => ?zero, fun k => ?power, fun guard dl h0 h => ?built, fun s => ?state, fun _ => ⟨rfl, rfl⟩⟩
  case zero =>
    have h := constructionError_zero guard
    exact ⟨construct_of_error h, configure_of_error h⟩
  case power =>
    have h := constructionError_of_isPowerOfTwo ⟨k, rfl⟩
    exact ⟨construct_of_error h, configure_of_error h⟩
  case built =>
    have hb : constructionError guard dl = none :=
      constructionError_eq_none_iff.2 ⟨h0, fun hg => h.resolve_left (by simp [hg])⟩
    exact ⟨_, construct_of_built hb, configure_of_built hb, rfl, rfl⟩
  case state => exact constructionError_eq_none_iff.1 s.cfg.built

end Sys2Proof.Machine
end

section
/-! SUPPORT. The data field as a number, and the encoder's data bits (40_construction.md rule R29). -/

namespace Sys2Proof.Machine

/-- The data field is the codeword modulo `2^DL`. -/
theorem dataField_toNat (c : Config) (w : BitVec c.cl) : (dataField c w).toNat = w.toNat % 2 ^ c.dl := by
  simp [dataField, BitVec.extractLsb'_toNat]

theorem dataField_ofNat (c : Config) (n : Nat) : dataField c (BitVec.ofNat c.cl n) = BitVec.ofNat c.dl n := by
  apply BitVec.eq_of_toNat_eq
  rw [dataField_toNat, BitVec.toNat_ofNat, BitVec.toNat_ofNat]
  exact Nat.mod_mod_of_dvd n (Nat.pow_dvd_pow 2 c.dl_le_cl)

/-- The mask fits the codeword. -/
theorem ofNat_mask_toNat (c : Config) : (BitVec.ofNat c.cl c.mask).toNat = 2 ^ c.dl - 1 := by
  have := Nat.two_pow_pos c.dl
  have := Nat.pow_le_pow_right (n := 2) (by omega) c.dl_le_cl
  exact Nat.mod_eq_of_lt (by rw [Config.mask, dataMask]; omega)

/-- Settles O4: `2^DL - 1` has exactly the bits below `DL` set, and masking with it is the remainder by `2^DL`. -/
theorem maskSelectsTheDataField : Obligations.MaskSelectsTheDataField := by
  unfold Obligations.MaskSelectsTheDataField
  refine ⟨fun c => ⟨Nat.sub_add_cancel (Nat.two_pow_pos c.dl), fun j _ => ?bit, fun w => ?slice⟩, rfl⟩
  case bit => rw [← BitVec.testBit_toNat, ofNat_mask_toNat, Nat.testBit_two_pow_sub_one]
  case slice => rw [BitVec.toNat_and, ofNat_mask_toNat, Nat.and_two_pow_sub_one_eq_mod, dataField_toNat]

/-- In the data field the contribution of data bit `i` is bit `i` alone, so the encoder keeps every data bit. -/
theorem hammingEncoder_getLsbD_of_lt {c : Config} (d : BitVec c.dl) {j : Nat} (h : j < c.dl) :
    (hammingEncoder c d).getLsbD j = d.getLsbD j := by
  have hcl : j < c.cl := h.trans_le c.dl_le_cl
  rw [hammingEncoder_getLsbD, ← xorOver_single d.getLsbD h]
  refine xorOver_congr fun i _ => ?_
  simp only [contrib_getLsbD, hcl, Nat.not_le.2 h, eq_comm, decide_true, decide_false, Bool.true_and, Bool.false_and,
    Bool.or_false]

/-- The data word is recovered from its codeword. -/
@[simp] theorem dataField_hammingEncoder (c : Config) (d : BitVec c.dl) : dataField c (hammingEncoder c d) = d := by
  apply BitVec.eq_of_getLsbD_eq; intro i hi
  rw [dataField_getLsbD, hammingEncoder_getLsbD_of_lt d hi, decide_eq_true hi, Bool.true_and]

end Sys2Proof.Machine
end

section
/-! SUPPORT. The degenerate codec `PL = 0` (40_construction.md rule R31): the codeword is its own data field, and no
syndrome locates. -/

namespace Sys2Proof.Machine

section

variable {c : Config} (h : c.pl = 0)
include h

theorem guardPL0_of_pl_eq_zero : c.guardPL0 = false := by
  obtain ⟨-, hguard⟩ := constructionError_eq_none_iff.1 c.built
  by_contra hg
  exact hguard (by simpa using hg) (parityLength_eq_zero_iff.1 h)

theorem cl_of_pl_eq_zero : c.cl = c.dl := by
  have := c.dl_add_pl
  omega

/-- Every vector of the parity width is the empty one, of value 0. -/
theorem toNat_of_pl_eq_zero (v : BitVec c.pl) : v.toNat = 0 :=
  Nat.lt_one_iff.1 (v.isLt.trans_eq (by rw [h, Nat.pow_zero]))

theorem dataField_toNat_of_pl_eq_zero (w : BitVec c.cl) : (dataField c w).toNat = w.toNat := by
  rw [dataField_toNat, ← cl_of_pl_eq_zero h, Nat.mod_eq_of_lt w.isLt]

theorem hammingEncoder_toNat_of_pl_eq_zero (d : BitVec c.dl) : (hammingEncoder c d).toNat = d.toNat := by
  rw [← dataField_toNat_of_pl_eq_zero h, dataField_hammingEncoder]

/-- A located position is below `PL`, so there is none. -/
theorem errorLocator_of_pl_eq_zero (s : BitVec c.pl) : errorLocator c s = none := by
  refine Option.eq_none_iff_forall_ne_some.2 fun k hk => ?_
  have := errorLocator_lt hk
  omega

theorem hammingDecoder_of_pl_eq_zero (w : BitVec c.cl) : hammingDecoder c w = (dataField c w, none) := by
  simp only [hammingDecoder, errorLocator_of_pl_eq_zero h, correct]

end

/-- Settles O7: under `PL = 0` nothing is located, and the data field is the whole codeword, for encoder and decoder
alike. -/
theorem degenerateCodecIsTheIdentity : Obligations.DegenerateCodecIsTheIdentity := by
  unfold Obligations.DegenerateCodecIsTheIdentity
  refine ⟨fun dl hdl => ⟨?refused, ?built⟩, fun guard => construct_of_error (constructionError_zero guard),
    fun s h => ⟨guardPL0_of_pl_eq_zero h, cl_of_pl_eq_zero h, ?encode, ?syndrome, ?locate, ?decode⟩,
    fun c hc => ?four⟩
  case refused => exact construct_of_error (constructionError_of_isPowerOfTwo hdl)
  case built =>
    have hb : constructionError false dl = none := constructionError_eq_none_iff.2 ⟨hdl.ne_zero, by simp⟩
    exact ⟨_, construct_of_built hb, rfl, parityLength_eq_zero_iff.2 hdl⟩
  case encode => exact ⟨_, exec_encode s, hammingEncoder_toNat_of_pl_eq_zero h _⟩
  case syndrome => exact ⟨_, exec_syndrome s, toNat_of_pl_eq_zero h _⟩
  case locate => rw [exec_locate, errorLocator_of_pl_eq_zero h]; rfl
  case decode =>
    refine ⟨dataField s.cfg s.decCodewordIn, ?_, dataField_toNat_of_pl_eq_zero h _⟩
    rw [exec_decode, hammingDecoder_of_pl_eq_zero h]; rfl
  case four =>
    have hpl : c.pl = 0 := by rw [Config.pl, hc]; decide
    rw [hammingDecoder_of_pl_eq_zero hpl, dataField_ofNat]

end Sys2Proof.Machine
end

section
/-! SUPPORT. Codecs of one data length (40_construction.md rule R32). -/

namespace Sys2Proof.Machine

/-- Settles O6: a configuration is a data length and a guard, and no parameter and no block reads the guard. -/
theorem equalDataLengthsGiveEqualCodecs : Obligations.EqualDataLengthsGiveEqualCodecs := by
  unfold Obligations.EqualDataLengthsGiveEqualCodecs
  rintro ⟨dl, guard, built⟩ ⟨dl', guard', built'⟩ h
  obtain rfl : dl = dl' := h
  exact ⟨rfl, fun n => ⟨rfl, rfl, rfl, rfl⟩⟩

end Sys2Proof.Machine
end

section
/-! SUPPORT. The contributions field by field (41_hamming_encoder.md rule R33). -/

namespace Sys2Proof.Machine

/-- In the data field a contribution has its own bit and no other. -/
theorem contrib_getLsbD_of_lt {c : Config} (i : Nat) {j : Nat} (h : j < c.dl) :
    (contrib c i).getLsbD j = decide (j = i) := by
  rw [contrib_getLsbD, decide_eq_true (h.trans_le c.dl_le_cl), decide_eq_false (Nat.not_le.2 h), Bool.true_and,
    Bool.false_and, Bool.or_false]

/-- In the parity field the contribution of a data bit has the bits of its index. -/
theorem contrib_getLsbD_dl_add {c : Config} {i : Nat} (hi : i < c.dl) (p : Nat) :
    (contrib c i).getLsbD (c.dl + p) = (decide (p < c.pl) && natBit i p) := by
  have hne : c.dl + p ≠ i := by omega
  simp [contrib_getLsbD, ← c.dl_add_pl, hne]

/-- A data index is below `2^M`, so it has no bit at or above `M`. -/
theorem natBit_of_m_le {c : Config} {i p : Nat} (hi : i < c.dl) (hp : c.m ≤ p) : natBit i p = false :=
  natBit_of_lt ((Config.lt_two_pow_m (hi.trans_le c.dl_le_cl)).trans_le (Nat.pow_le_pow_right (by omega) hp))

/-- Data bit 0 enters no parity bit: its contribution is bit 0 alone. -/
theorem contrib_zero (c : Config) : contrib c 0 = oneHot c.cl 0 := by
  apply BitVec.eq_of_getLsbD_eq; intro j _
  rw [contrib_getLsbD, oneHot_getLsbD, natBit_zero, Bool.and_false, Bool.or_false]

/-- Settles O8: a data bit's contribution is its own bit in the data field and its index in the parity field, and no
index has a bit at or above `M`. -/
theorem contributionSetsItsDataBitAndItsParityBits : Obligations.ContributionSetsItsDataBitAndItsParityBits := by
  unfold Obligations.ContributionSetsItsDataBitAndItsParityBits
  refine ⟨fun c i hi => ⟨fun j hj => contrib_getLsbD_of_lt i hj, fun p hp => ?parity, fun p hp => ?above⟩,
    fun c p => ?zero, ?six, by decide⟩
  case parity => rw [contrib_getLsbD_dl_add hi, decide_eq_true hp, Bool.true_and]
  case above => rw [contrib_getLsbD_dl_add hi, natBit_of_m_le hi hp, Bool.and_false]
  case zero => rw [contrib_getLsbD_dl_add c.dl_pos, natBit_zero, Bool.and_false]
  case six => rintro ⟨_, guard, built⟩ rfl; rfl

end Sys2Proof.Machine
end

section
/-! SUPPORT. ENCODE as a sum of contributions, in any order, and of words with at most one bit set (41_hamming_encoder.md
rule R34). -/

namespace Sys2Proof.Machine

/-- Exclusive-oring chosen vectors together does not depend on their order. -/
theorem foldl_xor_perm {w : Nat} (chosen : Nat → Bool) (v : Nat → BitVec w) {l l' : List Nat} (h : l.Perm l')
    (init : BitVec w) :
    l.foldl (fun acc i => if chosen i then acc ^^^ v i else acc) init =
      l'.foldl (fun acc i => if chosen i then acc ^^^ v i else acc) init := by
  refine h.foldl_eq' (fun i _ j _ acc => ?_) init
  have hcomm : acc ^^^ v j ^^^ v i = acc ^^^ v i ^^^ v j := by
    rw [BitVec.xor_assoc, BitVec.xor_comm (v j), ← BitVec.xor_assoc]
  cases chosen i <;> cases chosen j <;> simp [hcomm]

/-- The encoder's loop may run over the data bits in any order. -/
theorem hammingEncoder_eq_foldl_of_perm {c : Config} (d : BitVec c.dl) {order : List Nat}
    (h : order.Perm (List.range c.dl)) :
    hammingEncoder c d = order.foldl (fun w i => if d.getLsbD i then w ^^^ contrib c i else w) 0#c.cl := by
  rw [hammingEncoder, loop_eq_foldl_range]
  exact foldl_xor_perm d.getLsbD (contrib c) h.symm _

/-- No data bit is set, so nothing is contributed. -/
@[simp] theorem hammingEncoder_zero (c : Config) : hammingEncoder c 0#c.dl = 0#c.cl := by
  apply BitVec.eq_of_getLsbD_eq; intro j _
  simp only [hammingEncoder_getLsbD, BitVec.getLsbD_zero, Bool.false_and, xorOver_false]

/-- A word with one bit set encodes to that bit's contribution. -/
theorem hammingEncoder_oneHot {c : Config} {i : Nat} (h : i < c.dl) :
    hammingEncoder c (oneHot c.dl i) = contrib c i := by
  apply BitVec.eq_of_getLsbD_eq; intro j _
  rw [hammingEncoder_getLsbD, ← xorOver_single (fun k => (contrib c k).getLsbD j) h]
  refine xorOver_congr fun k hk => ?_
  rw [oneHot_getLsbD, decide_eq_true hk, Bool.true_and, Bool.and_comm]

theorem hammingEncoder_toNat_of_zero {c : Config} {d : BitVec c.dl} (h : d.toNat = 0) :
    (hammingEncoder c d).toNat = 0 := by
  obtain rfl : d = 0#c.dl := BitVec.eq_of_toNat_eq h
  rw [hammingEncoder_zero, BitVec.toNat_zero]

/-- The word 1 is data bit 0 alone, which enters no parity bit. -/
theorem hammingEncoder_toNat_of_one {c : Config} {d : BitVec c.dl} (h : d.toNat = 1) :
    (hammingEncoder c d).toNat = 1 := by
  obtain rfl : d = oneHot c.dl 0 := BitVec.eq_of_toNat_eq (by rw [h, oneHot_toNat c.dl_pos, Nat.pow_zero])
  rw [hammingEncoder_oneHot c.dl_pos, contrib_zero, oneHot_toNat (c.dl_pos.trans_le c.dl_le_cl), Nat.pow_zero]

/-- The worked example of rule R34: all parity bits come out 0. -/
theorem hammingEncoder_reference_51 :
    (hammingEncoder Config.reference (BitVec.ofNat _ 51)).toNat = 51 := by decide

/-- Settles O9: what `ENCODE` delivers is the encoder's loop, an exclusive-or of contributions bit by bit, and
exclusive-or commutes. -/
theorem encodeDeliversTheXorOfContributions : Obligations.EncodeDeliversTheXorOfContributions := by
  unfold Obligations.EncodeDeliversTheXorOfContributions
  refine ⟨fun s => ⟨hammingEncoder s.cfg s.encDataIn, exec_encode s, ?_⟩, hammingEncoder_reference_51⟩
  exact ⟨hammingEncoder_getLsbD s.cfg s.encDataIn, fun _ => hammingEncoder_eq_foldl_of_perm s.encDataIn,
    hammingEncoder_toNat_of_zero, hammingEncoder_toNat_of_one, fun h => hammingEncoder_toNat_of_pl_eq_zero h _⟩

end Sys2Proof.Machine
end

section
/-! SUPPORT. The integer view of ENCODE: what it answers in each case (41_hamming_encoder.md rule R36). -/

namespace Sys2Proof.Machine

/-- The value of a data word is encoded as that word. -/
theorem encodeInt_toNat {c : Config} (v : BitVec c.dl) : encodeInt c v.toNat = .next (hammingEncoder c v).toNat := by
  have hfit : wellFormedPortValue c.dl v.toNat = true := decide_eq_true v.isLt
  rw [encodeInt, if_pos hfit, BitVec.ofNat_toNat, BitVec.setWidth_eq]

/-- A number that no data word has as its value is refused. -/
theorem encodeInt_of_le {c : Config} {data : Nat} (h : 2 ^ c.dl ≤ data) :
    encodeInt c data = .refused (.valueTooWide c.dl data) := by
  have hwide : ¬ wellFormedPortValue c.dl data = true := by simpa [wellFormedPortValue] using h
  rw [encodeInt, if_neg hwide]

/-- Settles O14: the check of the argument passes exactly for the values of the data words. -/
theorem encodeIntegerViewRefusesWideData : Obligations.EncodeIntegerViewRefusesWideData := by
  unfold Obligations.EncodeIntegerViewRefusesWideData
  refine ⟨fun c data => ⟨?fits, encodeInt_of_le⟩, ?example51, encodeInt_of_le (c := Config.reference) (by decide)⟩
  case fits => rintro v rfl; exact encodeInt_toNat v
  case example51 =>
    exact (encodeInt_toNat (c := Config.reference) (BitVec.ofNat _ 51)).trans
      (congrArg _ hammingEncoder_reference_51)

end Sys2Proof.Machine
end

section
/-! SUPPORT. SYNDROME check by check: which positions a check covers (42_syndrome_calculator.md rule R37). -/

namespace Sys2Proof.Machine

/-- A position is below `2^M`, so it has no bit at or above `M`. -/
theorem natBit_position_of_m_le {c : Config} {j i : Nat} (hj : j < c.cl) (hi : c.m ≤ i) : natBit j i = false :=
  natBit_of_lt ((Config.lt_two_pow_m hj).trans_le (Nat.pow_le_pow_right (by omega) hi))

/-- Below `PL`, bit `i` of a syndrome is the exclusive-or over the cover set of check `i`. -/
theorem syndromeCalculator_getLsbD_of_lt {c : Config} (w : BitVec c.cl) {i : Nat} (hi : i < c.pl) :
    (syndromeCalculator c w).getLsbD i = xorOver c.cl fun j => natBit j i && w.getLsbD j := by
  rw [syndromeCalculator_getLsbD, decide_eq_true hi, Bool.true_and, parityCheck_eq]

/-- The cover set of a check at or above `M` is empty. -/
theorem parityCheck_of_m_le {c : Config} (w : BitVec c.cl) {i : Nat} (hi : c.m ≤ i) : parityCheck c w i = false := by
  rw [parityCheck_eq, ← xorOver_false c.cl]
  refine xorOver_congr fun j hj => ?_
  rw [natBit_position_of_m_le hj hi, Bool.false_and]

theorem syndromeCalculator_getLsbD_of_m_le {c : Config} (w : BitVec c.cl) {i : Nat} (hi : c.m ≤ i) :
    (syndromeCalculator c w).getLsbD i = false := by
  rw [syndromeCalculator_getLsbD, parityCheck_of_m_le w hi, Bool.and_false]

/-- Position 0 is in no cover set, so codewords that agree at every other position have one syndrome. -/
theorem syndromeCalculator_congr {c : Config} {a b : BitVec c.cl}
    (h : ∀ j, j ≠ 0 → a.getLsbD j = b.getLsbD j) : syndromeCalculator c a = syndromeCalculator c b := by
  apply BitVec.eq_of_getLsbD_eq; intro i hi
  rw [syndromeCalculator_getLsbD_of_lt a hi, syndromeCalculator_getLsbD_of_lt b hi]
  refine xorOver_congr fun j _ => ?_
  by_cases hj : j = 0
  · rw [hj, natBit_zero, Bool.false_and, Bool.false_and]
  · rw [h j hj]

/-- Flipping bit 0 of a codeword leaves its syndrome as it is. -/
theorem syndromeCalculator_xor_oneHot_zero (c : Config) (w : BitVec c.cl) :
    syndromeCalculator c (w ^^^ oneHot c.cl 0) = syndromeCalculator c w := by
  refine syndromeCalculator_congr fun j hj => ?_
  rw [BitVec.getLsbD_xor, oneHot_getLsbD, decide_eq_false hj, Bool.and_false, Bool.xor_false]

@[simp] theorem syndromeCalculator_zero (c : Config) : syndromeCalculator c 0#c.cl = 0#c.pl := by
  apply BitVec.eq_of_getLsbD_eq; intro i hi
  simp only [syndromeCalculator_getLsbD_of_lt _ hi, BitVec.getLsbD_zero, Bool.and_false, xorOver_false]

theorem syndromeCalculator_toNat_of_zero {c : Config} {w : BitVec c.cl} (h : w.toNat = 0) :
    (syndromeCalculator c w).toNat = 0 := by
  obtain rfl : w = 0#c.cl := BitVec.eq_of_toNat_eq h
  rw [syndromeCalculator_zero, BitVec.toNat_zero]

/-- The worked example of rule R37: bits 0, 1 and 5 are set, and only check 2 fails. -/
theorem syndromeCalculator_reference_35 :
    (syndromeCalculator Config.reference (BitVec.ofNat _ 35)).toNat = 4 := by decide

/-- Settles O15: what `SYNDROME` delivers is the exclusive-or over each check's cover set, which never holds position 0
and is empty from `M` on. -/
theorem syndromeDeliversTheParityChecks : Obligations.SyndromeDeliversTheParityChecks := by
  unfold Obligations.SyndromeDeliversTheParityChecks
  refine ⟨fun s => ⟨syndromeCalculator s.cfg s.synCodewordIn, exec_syndrome s, ?_⟩,
    syndromeCalculator_xor_oneHot_zero, syndromeCalculator_reference_35⟩
  exact ⟨fun _ => syndromeCalculator_getLsbD_of_lt _, syndromeCalculator_toNat_of_zero,
    fun _ => syndromeCalculator_getLsbD_of_m_le _, fun h => toNat_of_pl_eq_zero h _⟩

end Sys2Proof.Machine
end

section
/-! SUPPORT. The integer view of SYNDROME: the codeword it reads from a number (42_syndrome_calculator.md rule R39). -/

namespace Sys2Proof.Machine

/-- A vector whose bits are the low bits of a number is the vector read from that number. -/
theorem ofNat_eq_of_natBit {w n : Nat} {v : BitVec w} (h : ∀ j, j < w → v.getLsbD j = natBit n j) :
    BitVec.ofNat w n = v := by
  apply BitVec.eq_of_getLsbD_eq; intro j hj
  rw [BitVec.getLsbD_ofNat, decide_eq_true hj, Bool.true_and, h j hj, natBit_eq_testBit]

theorem syndromeInt_of_natBit {c : Config} {n : Nat} {v : BitVec c.cl}
    (h : ∀ j, j < c.cl → v.getLsbD j = natBit n j) : syndromeInt c n = (syndromeCalculator c v).toNat := by
  rw [syndromeInt, ofNat_eq_of_natBit h]

/-- Settles O19: the integer view is the syndrome of the codeword that the number's bits below `CL` spell, so 35 and
`35 + 2^16` have the syndrome of one codeword. -/
theorem syndromeIntegerViewIgnoresHighBits : Obligations.SyndromeIntegerViewIgnoresHighBits := by
  unfold Obligations.SyndromeIntegerViewIgnoresHighBits
  refine ⟨fun c n v => syndromeInt_of_natBit, syndromeCalculator_reference_35, ?high⟩
  case high =>
    have hbits : ∀ j, j < Config.reference.cl →
        (BitVec.ofNat Config.reference.cl 35).getLsbD j = natBit (35 + 65536) j := by decide
    exact (syndromeInt_of_natBit hbits).trans syndromeCalculator_reference_35

end Sys2Proof.Machine
end

section
/-! SUPPORT. LOCATE: what the locator answers, by the value and by the bits of the syndrome (43_error_locator.md rule
R40). -/

namespace Sys2Proof.Machine

/-- A number strictly between two successive powers of two is none itself. -/
theorem not_isPowerOfTwo_of_lt_of_lt {n k : Nat} (hlo : 2 ^ k < n) (hhi : n < 2 ^ (k + 1)) : ¬ IsPowerOfTwo n := by
  rintro ⟨j, rfl⟩
  have hkj : k < j := (Nat.pow_lt_pow_iff_right (by omega)).1 hlo
  have hjk : j < k + 1 := (Nat.pow_lt_pow_iff_right (by omega)).1 hhi
  omega

theorem isSome_errorLocator_iff {c : Config} {s : BitVec c.pl} :
    (errorLocator c s).isSome ↔ IsPowerOfTwo s.toNat := by
  simp only [Option.isSome_iff_exists, errorLocator_eq_some, IsPowerOfTwo]

theorem errorLocator_eq_none_iff {c : Config} {s : BitVec c.pl} :
    errorLocator c s = none ↔ ¬ IsPowerOfTwo s.toNat := by
  rw [← isSome_errorLocator_iff, Option.not_isSome_iff_eq_none]

theorem errorLocator_eq_none_of_zero {c : Config} {s : BitVec c.pl} (h : s.toNat = 0) : errorLocator c s = none :=
  errorLocator_eq_none_iff.2 fun hs => hs.ne_zero h

/-- The syndrome of a located position is `1 << k`. -/
theorem errorLocator_eq_some_iff_eq_oneHot {c : Config} {s : BitVec c.pl} {k : Nat} :
    errorLocator c s = some k ↔ k < c.pl ∧ s = oneHot c.pl k := by
  constructor
  · intro h
    have hk := errorLocator_lt h
    exact ⟨hk, BitVec.eq_of_toNat_eq (by rw [errorLocator_eq_some.1 h, oneHot_toNat hk])⟩
  · rintro ⟨hk, rfl⟩
    exact errorLocator_eq_some.2 (oneHot_toNat hk)

/-- The located position is the index of the one set bit. -/
theorem errorLocator_eq_some_iff_getLsbD {c : Config} {s : BitVec c.pl} {k : Nat} :
    errorLocator c s = some k ↔ k < c.pl ∧ ∀ i, i < c.pl → s.getLsbD i = decide (i = k) := by
  have honeHot : ∀ i, i < c.pl → (oneHot c.pl k).getLsbD i = decide (i = k) := fun i hi => by
    rw [oneHot_getLsbD, decide_eq_true hi, Bool.true_and]
  rw [errorLocator_eq_some_iff_eq_oneHot]
  refine and_congr_right fun _ => ⟨?_, fun h => ?_⟩
  · rintro rfl; exact honeHot
  · apply BitVec.eq_of_getLsbD_eq; intro i hi
    rw [h i hi, honeHot i hi]

/-- The first worked example of rule R40: syndrome 4 is `2^2`. -/
theorem errorLocator_reference_4 : errorLocator Config.reference (BitVec.ofNat _ 4) = some 2 :=
  errorLocator_eq_some.2 (by decide)

/-- The second one: syndrome 5 is no power of two. -/
theorem errorLocator_reference_5 : errorLocator Config.reference (BitVec.ofNat _ 5) = none :=
  errorLocator_eq_none_iff.2 (not_isPowerOfTwo_of_lt_of_lt (k := 2) (by decide) (by decide))

/-- Settles O21: what `LOCATE` delivers is the locator's answer, `k` exactly for the syndrome `2^k`, whose one set bit
is `k`; 0 and 3 are no powers of two. -/
theorem locateDeliversTheExponentOfAPowerOfTwo : Obligations.LocateDeliversTheExponentOfAPowerOfTwo := by
  unfold Obligations.LocateDeliversTheExponentOfAPowerOfTwo
  refine ⟨fun s => ⟨errorLocator s.cfg s.locSyndromeIn, exec_locate s, fun k => errorLocator_eq_some,
    fun k => errorLocator_eq_some_iff_getLsbD, errorLocator_eq_none_iff, errorLocator_eq_none_of_zero, ?one, ?three,
    fun h => errorLocator_of_pl_eq_zero h _, fun h _ => errorLocator_eq_some.2 h⟩, ?example4, ?example5⟩
  case one => intro h; exact errorLocator_eq_some.2 h
  case three =>
    intro h
    rw [errorLocator_eq_none_iff, h]
    exact not_isPowerOfTwo_of_lt_of_lt (k := 1) (by decide) (by decide)
  case example4 => rw [errorLocator_reference_4]; exact errorPositionPort_some_toNat (by decide)
  case example5 => rw [errorLocator_reference_5]; decide

end Sys2Proof.Machine
end

section
/-! SUPPORT. The locator's scan range, its count of located syndromes, and its tables (43_error_locator.md rule R41). -/

namespace Sys2Proof.Machine

/-- A located position is below `PL`, so the scan may stop there. -/
theorem errorLocator_eq_find?_range_pl (c : Config) (s : BitVec c.pl) :
    errorLocator c s = (List.range c.pl).find? fun k => s.toNat == 2 ^ k := by
  refine Option.ext fun k => ⟨fun h => ?_, fun h => ?_⟩
  · have hk := errorLocator_lt h
    rw [errorLocator, List.find?_range_eq_some] at h
    obtain ⟨hmatch, -, hfirst⟩ := h
    exact List.find?_range_eq_some.2 ⟨hmatch, List.mem_range.2 hk, hfirst⟩
  · obtain ⟨hmatch, -, -⟩ := List.find?_range_eq_some.1 h
    exact errorLocator_eq_some.2 (beq_iff_eq.1 hmatch)

/-- The locator on the syndrome of a number: its scan as a function of that number, the rows of the tables. -/
theorem errorLocator_ofNat {c : Config} {w n : Nat} (hw : c.pl = w) (hn : n < 2 ^ w) :
    errorLocator c (BitVec.ofNat c.pl n) = (List.range w).find? fun k => n == 2 ^ k := by
  subst hw
  rw [errorLocator_eq_find?_range_pl, BitVec.toNat_ofNat, Nat.mod_eq_of_lt hn]

/-- The located syndromes are `2^k` for `k < PL`. -/
theorem filter_isSome_errorLocator_eq_image (c : Config) :
    (Finset.range (2 ^ c.pl)).filter (fun n => (errorLocator c (BitVec.ofNat c.pl n)).isSome) =
      (Finset.range c.pl).image (2 ^ ·) := by
  ext n
  simp only [Finset.mem_filter, Finset.mem_image, Finset.mem_range, isSome_errorLocator_iff, BitVec.toNat_ofNat]
  constructor
  · rintro ⟨hn, k, hk⟩
    rw [Nat.mod_eq_of_lt hn] at hk
    subst hk
    exact ⟨k, (Nat.pow_lt_pow_iff_right (by omega)).1 hn, rfl⟩
  · rintro ⟨k, hk, rfl⟩
    have hn : 2 ^ k < 2 ^ c.pl := Nat.pow_lt_pow_right (by omega) hk
    exact ⟨hn, k, Nat.mod_eq_of_lt hn⟩

/-- Different exponents give different syndromes, so as many are located as there are exponents. -/
theorem countP_isSome_errorLocator (c : Config) :
    ((List.range (2 ^ c.pl)).countP fun n => (errorLocator c (BitVec.ofNat c.pl n)).isSome) = c.pl := by
  have hcount := Nat.count_eq_card_filter_range (fun n => (errorLocator c (BitVec.ofNat c.pl n)).isSome) (2 ^ c.pl)
  rw [filter_isSome_errorLocator_eq_image, Finset.card_image_of_injective _ (Nat.pow_right_injective le_rfl),
    Finset.card_range] at hcount
  simpa [Nat.count] using hcount

/-- Bit `k` of a syndrome that locates `k` is set, and the bits from `M` on of a codeword's syndrome are not. -/
theorem lt_min_of_errorLocator_syndromeCalculator {c : Config} {w : BitVec c.cl} {k : Nat}
    (h : errorLocator c (syndromeCalculator c w) = some k) : k < min c.pl c.m := by
  obtain ⟨hk, hbits⟩ := errorLocator_eq_some_iff_getLsbD.1 h
  refine lt_min hk (Nat.lt_of_not_le fun hm => ?_)
  have hset := hbits k hk
  rw [syndromeCalculator_getLsbD_of_m_le w hm, decide_eq_true rfl] at hset
  exact Bool.false_ne_true hset

/-- `none` stands for two kinds of syndrome: 0, and every other number that is no power of two. -/
theorem errorLocator_eq_none_iff_zero_or {c : Config} {s : BitVec c.pl} :
    errorLocator c s = none ↔ s = 0#c.pl ∨ (s ≠ 0#c.pl ∧ ¬ IsPowerOfTwo s.toNat) := by
  by_cases h : s = 0#c.pl
  · simp [h, errorLocator_eq_none_of_zero BitVec.toNat_zero]
  · simp [h, errorLocator_eq_none_iff]

/-- Settles O22: a located position is below `PL`, and below `M` when the syndrome is a codeword's; the scan over
`[0, PL)` gives the count and the tables. -/
theorem locatorReachAndTables : Obligations.LocatorReachAndTables := by
  unfold Obligations.LocatorReachAndTables
  refine ⟨fun c => ⟨fun s k => errorLocator_lt, errorLocator_eq_find?_range_pl c, countP_isSome_errorLocator c,
    fun w k => lt_min_of_errorLocator_syndromeCalculator, fun s => errorLocator_eq_none_iff_zero_or⟩, ?three, ?five⟩
  case three =>
    intro c hpl
    calc (List.range 8).map (fun n => errorLocator c (BitVec.ofNat c.pl n))
        = (List.range 8).map (fun n => (List.range 3).find? fun k => n == 2 ^ k) :=
          List.map_congr_left fun n hn => errorLocator_ofNat hpl (List.mem_range.1 hn)
      _ = [none, some 0, some 1, none, some 2, none, none, none] := by decide
  case five =>
    intro c hpl
    have hrow : ∀ n, n < 32 →
        errorLocator c (BitVec.ofNat c.pl n) = (List.range 5).find? fun k => n == 2 ^ k :=
      fun n hn => errorLocator_ofNat hpl hn
    refine ⟨hrow 1 (by decide), hrow 2 (by decide), hrow 4 (by decide), hrow 8 (by decide), hrow 16 (by decide),
      fun n hn h1 h2 h4 h8 h16 => ?_⟩
    rw [hrow n hn, List.find?_eq_none]
    intro k hk
    have hk5 : k < 5 := List.mem_range.1 hk
    interval_cases k <;> simp [h1, h2, h4, h8, h16]

end Sys2Proof.Machine
end

section
/-! SUPPORT. SYNDROME of an exclusive-or and of one flipped position (42_syndrome_calculator.md rule R38). -/

namespace Sys2Proof.Machine

/-- SYNDROME is linear: every check is an exclusive-or of codeword bits. -/
theorem syndromeCalculator_xor (c : Config) (a b : BitVec c.cl) :
    syndromeCalculator c (a ^^^ b) = syndromeCalculator c a ^^^ syndromeCalculator c b := by
  apply BitVec.eq_of_getLsbD_eq; intro i hi
  rw [BitVec.getLsbD_xor, syndromeCalculator_getLsbD_of_lt _ hi, syndromeCalculator_getLsbD_of_lt _ hi,
    syndromeCalculator_getLsbD_of_lt _ hi, ← xorOver_xor]
  refine xorOver_congr fun j _ => ?_
  rw [BitVec.getLsbD_xor, Bool.and_xor_distrib_left]

/-- Position `k` is covered by the checks of its own index bits. -/
theorem syndromeCalculator_oneHot_getLsbD {c : Config} {k i : Nat} (hk : k < c.cl) (hi : i < c.pl) :
    (syndromeCalculator c (oneHot c.cl k)).getLsbD i = natBit k i := by
  rw [syndromeCalculator_getLsbD_of_lt _ hi, ← xorOver_single (natBit · i) hk]
  refine xorOver_congr fun j hj => ?_
  rw [oneHot_getLsbD, decide_eq_true hj, Bool.true_and]

end Sys2Proof.Machine
end

section
/-! SUPPORT. DECODE by the locator's answer (44_hamming_decoder.md rule R42). -/

namespace Sys2Proof.Machine

@[simp] theorem correct_none (c : Config) (w : BitVec c.cl) : correct c w none = w := rfl

@[simp] theorem correct_some (c : Config) (w : BitVec c.cl) (k : Nat) : correct c w (some k) = w ^^^ oneHot c.cl k := rfl

/-- The correction complements the located position and no other. -/
theorem correct_some_getLsbD {c : Config} (w : BitVec c.cl) (k : Nat) {j : Nat} (hj : j < c.cl) :
    (correct c w (some k)).getLsbD j = Bool.xor (w.getLsbD j) (decide (j = k)) := by
  rw [correct_some, BitVec.getLsbD_xor, oneHot_getLsbD, decide_eq_true hj, Bool.true_and]

/-- `1 << k` in the codeword is `1 << k` in the data field; both drop a `k` from `DL` on. -/
theorem dataField_oneHot (c : Config) (k : Nat) : dataField c (oneHot c.cl k) = oneHot c.dl k := by
  apply BitVec.eq_of_getLsbD_eq; intro i hi
  rw [dataField_getLsbD, oneHot_getLsbD, oneHot_getLsbD, decide_eq_true hi, decide_eq_true (hi.trans_le c.dl_le_cl),
    Bool.true_and]

theorem hammingDecoder_eq (c : Config) (w : BitVec c.cl) :
    hammingDecoder c w = (dataField c (correct c w (errorLocator c (syndromeCalculator c w))),
      errorLocator c (syndromeCalculator c w)) := rfl

/-- With nothing located the data field is delivered as received. -/
theorem hammingDecoder_of_none {c : Config} {w : BitVec c.cl} (h : errorLocator c (syndromeCalculator c w) = none) :
    hammingDecoder c w = (dataField c w, none) := by
  rw [hammingDecoder_eq, h, correct_none]

/-- A located position is flipped in the data field. -/
theorem hammingDecoder_of_some {c : Config} {w : BitVec c.cl} {k : Nat}
    (h : errorLocator c (syndromeCalculator c w) = some k) :
    hammingDecoder c w = (dataField c w ^^^ oneHot c.dl k, some k) := by
  rw [hammingDecoder_eq, h, correct_some, dataField_xor, dataField_oneHot]

/-- The worked example of rule R42: syndrome 4 locates position 2, which is flipped. -/
theorem hammingDecoder_reference_35 :
    hammingDecoder Config.reference (BitVec.ofNat _ 35) = (BitVec.ofNat _ 39, some 2) := by
  have hlocated : errorLocator Config.reference (syndromeCalculator Config.reference (BitVec.ofNat _ 35)) = some 2 :=
    errorLocator_eq_some.2 syndromeCalculator_reference_35
  rw [hammingDecoder_of_some hlocated, dataField_ofNat]
  rfl

/-- Settles O23: the syndrome, position, corrected codeword and data word of the chain are those of the three blocks'
functions, which the decoder composes. -/
theorem decodeChainsSyndromeLocateCorrectMask : Obligations.DecodeChainsSyndromeLocateCorrectMask := by
  unfold Obligations.DecodeChainsSyndromeLocateCorrectMask
  refine ⟨fun s => ?chain, hammingDecoder_reference_35⟩
  case chain =>
    let syndrome := syndromeCalculator s.cfg s.decCodewordIn
    let position := errorLocator s.cfg syndrome
    let corrected := correct s.cfg s.decCodewordIn position
    refine ⟨syndrome, position, corrected, dataField s.cfg corrected, exec_syndrome _, exec_locate _,
      fun k => errorLocator_eq_some, fun hnone => ?received, fun k hsome j hj => ?flipped, fun i hi => ?data,
      exec_decode s⟩
    case received => exact congrArg (correct s.cfg s.decCodewordIn) hnone
    case flipped => rw [← correct_some_getLsbD _ k hj, ← hsome]
    case data => rw [dataField_getLsbD, decide_eq_true hi, Bool.true_and]

end Sys2Proof.Machine
end

section
/-! SUPPORT. The three cases of DECODE by the syndrome (44_hamming_decoder.md rule R43). -/

namespace Sys2Proof.Machine

theorem decodeCase_zero (c : Config) : decodeCase c 0#c.pl = .noErrorDetected := if_pos rfl

/-- A syndrome that locates is a power of two, so it is not 0. -/
theorem decodeCase_of_some {c : Config} {s : BitVec c.pl} {k : Nat} (h : errorLocator c s = some k) :
    decodeCase c s = .located k := by
  have hs : s ≠ 0#c.pl := by
    rintro rfl
    rw [errorLocator_eq_none_of_zero BitVec.toNat_zero] at h
    cases h
  rw [decodeCase, if_neg hs, h]

theorem decodeCase_of_none {c : Config} {s : BitVec c.pl} (hs : s ≠ 0#c.pl) (h : errorLocator c s = none) :
    decodeCase c s = .uncorrectablePattern := by
  rw [decodeCase, if_neg hs, h]

/-- With nothing located the decoder delivers the received data field and `none`. -/
theorem exec_decode_of_none {s : State} (h : errorLocator s.cfg (syndromeCalculator s.cfg s.decCodewordIn) = none) :
    exec .decode s = .next { s with decDataOut := dataField s.cfg s.decCodewordIn,
                                    decErrorPosition := errorPositionPort s.cfg none } := by
  rw [exec_decode, hammingDecoder_of_none h]

/-- With `k` located the decoder delivers the data field with bit `k` flipped, and `k`. -/
theorem exec_decode_of_some {s : State} {k : Nat}
    (h : errorLocator s.cfg (syndromeCalculator s.cfg s.decCodewordIn) = some k) :
    exec .decode s = .next { s with decDataOut := dataField s.cfg s.decCodewordIn ^^^ oneHot s.cfg.dl k,
                                    decErrorPosition := errorPositionPort s.cfg (some k) } := by
  rw [exec_decode, hammingDecoder_of_some h]

/-- Rule R43's example of a clean codeword: 51 has syndrome 0. -/
theorem hammingDecoder_reference_51 :
    hammingDecoder Config.reference (BitVec.ofNat _ 51) = (BitVec.ofNat _ 51, none) := by
  have hsyndrome : (syndromeCalculator Config.reference (BitVec.ofNat _ 51)).toNat = 0 := by decide
  rw [hammingDecoder_of_none (errorLocator_eq_none_of_zero hsyndrome), dataField_ofNat]

/-- Rule R43's example of an uncorrectable pattern: 8208 has syndrome 9, which lies between `2^3` and `2^4`. -/
theorem hammingDecoder_reference_8208 :
    hammingDecoder Config.reference (BitVec.ofNat _ 8208) = (BitVec.ofNat _ 16, none) := by
  have hsyndrome : ¬ IsPowerOfTwo (syndromeCalculator Config.reference (BitVec.ofNat _ 8208)).toNat :=
    not_isPowerOfTwo_of_lt_of_lt (k := 3) (by decide) (by decide)
  rw [hammingDecoder_of_none (errorLocator_eq_none_iff.2 hsyndrome), dataField_ofNat]
  decide

/-- Settles O24: the locator's answer on the syndrome decides both the case and the outputs. -/
theorem decodeFallsInOneOfThreeCases : Obligations.DecodeFallsInOneOfThreeCases := by
  unfold Obligations.DecodeFallsInOneOfThreeCases
  refine ⟨fun s => ⟨fun hzero => ?zero, fun k hpow => ?power, fun hne hpow => ?other⟩, hammingDecoder_reference_51,
    hammingDecoder_reference_35, hammingDecoder_reference_8208⟩
  case zero =>
    refine ⟨hzero ▸ decodeCase_zero s.cfg, exec_decode_of_none ?_⟩
    exact errorLocator_eq_none_of_zero (by rw [hzero, BitVec.toNat_zero])
  case power =>
    have hlocated := errorLocator_eq_some.2 hpow
    exact ⟨errorLocator_lt hlocated, decodeCase_of_some hlocated, exec_decode_of_some hlocated⟩
  case other =>
    have hnone := errorLocator_eq_none_iff.2 hpow
    exact ⟨decodeCase_of_none hne hnone, exec_decode_of_none hnone⟩

end Sys2Proof.Machine
end

section
/-! SUPPORT. What the correction changes: the data field, and the checks afterwards (44_hamming_decoder.md rule R44). -/

namespace Sys2Proof.Machine

/-- A located position is below `PL`, which is below `DL`. -/
theorem lt_dl_of_errorLocator {c : Config} {s : BitVec c.pl} {k : Nat} (h : errorLocator c s = some k) : k < c.dl :=
  (errorLocator_lt h).trans c.pl_lt_dl

/-- The correction at `k` changes the checks that cover `k`. -/
theorem syndromeCalculator_correct_some_getLsbD {c : Config} (w : BitVec c.cl) {k i : Nat} (hk : k < c.cl)
    (hi : i < c.pl) :
    (syndromeCalculator c (correct c w (some k))).getLsbD i =
      Bool.xor ((syndromeCalculator c w).getLsbD i) (natBit k i) := by
  rw [correct_some, syndromeCalculator_xor, BitVec.getLsbD_xor, syndromeCalculator_oneHot_getLsbD hk hi]

/-- The failing check `k` does not cover position `k`, so it fails after the correction too. -/
theorem syndromeCalculator_correct_located_getLsbD {c : Config} {w : BitVec c.cl} {k : Nat}
    (h : errorLocator c (syndromeCalculator c w) = some k) :
    (syndromeCalculator c (correct c w (some k))).getLsbD k = true := by
  obtain ⟨hk, hbits⟩ := errorLocator_eq_some_iff_getLsbD.1 h
  have hcl : k < c.cl := (lt_dl_of_errorLocator h).trans_le c.dl_le_cl
  rw [syndromeCalculator_correct_some_getLsbD w hcl hk, hbits k hk, natBit_self, decide_eq_true rfl, Bool.xor_false]

/-- Codewords of one data field and one syndrome decode alike: the parity field matters through the syndrome only. -/
theorem hammingDecoder_congr {c : Config} {w w' : BitVec c.cl} (hdata : dataField c w = dataField c w')
    (hsyndrome : syndromeCalculator c w = syndromeCalculator c w') : hammingDecoder c w = hammingDecoder c w' := by
  cases h : errorLocator c (syndromeCalculator c w) with
  | none => rw [hammingDecoder_of_none h, hammingDecoder_of_none (hsyndrome ▸ h), hdata]
  | some k => rw [hammingDecoder_of_some h, hammingDecoder_of_some (hsyndrome ▸ h), hdata]

/-- Settles O25: a located position is below `PL < DL` and has its own index bit clear (`k < 2^k`), so its flip leaves
check `k` failing. -/
theorem correctionLandsInTheDataField : Obligations.CorrectionLandsInTheDataField := by
  unfold Obligations.CorrectionLandsInTheDataField
  refine ⟨fun c w k h => ?located, fun c w h => ?unlocated, fun c w w' => hammingDecoder_congr, by decide⟩
  case located =>
    have hk : k < c.dl := lt_dl_of_errorLocator h
    exact ⟨hk, natBit_self k, by rw [hammingDecoder_of_some h],
      fun i => syndromeCalculator_correct_some_getLsbD w (hk.trans_le c.dl_le_cl),
      syndromeCalculator_correct_located_getLsbD h⟩
  case unlocated => rw [hammingDecoder_of_none h]

end Sys2Proof.Machine
end

section
/-! SUPPORT. The integer view of DECODE: the codeword it reads from a number (44_hamming_decoder.md rule R45). -/

namespace Sys2Proof.Machine

theorem decodeInt_of_natBit {c : Config} {n : Nat} {v : BitVec c.cl}
    (h : ∀ j, j < c.cl → v.getLsbD j = natBit n j) :
    decodeInt c n = ((hammingDecoder c v).1.toNat, (hammingDecoder c v).2) := by
  rw [decodeInt, ofNat_eq_of_natBit h]

/-- A number whose bits below `CL` are those of 35 decodes as 35 does. -/
theorem decodeInt_reference_of_natBit_35 {n : Nat}
    (h : ∀ j, j < Config.reference.cl → (BitVec.ofNat Config.reference.cl 35).getLsbD j = natBit n j) :
    decodeInt Config.reference n = (39, some 2) := by
  rw [decodeInt_of_natBit h, hammingDecoder_reference_35]
  rfl

/-- Settles O26: the integer view decodes the codeword that the number's bits below `CL` spell, the same one for 35 and
`35 + 2^16`. -/
theorem decodeIntegerViewIgnoresHighBits : Obligations.DecodeIntegerViewIgnoresHighBits := by
  unfold Obligations.DecodeIntegerViewIgnoresHighBits
  exact ⟨fun c n v => decodeInt_of_natBit, decodeInt_reference_of_natBit_35 (by decide),
    decodeInt_reference_of_natBit_35 (by decide)⟩

end Sys2Proof.Machine
end

section
/-! SUPPORT. The received syndrome and the result of DECODE for any error pattern (45_properties.md rule R49). -/

namespace Sys2Proof.Machine

/-- Chosen numbers exclusive-ored together, bit by bit. -/
theorem testBit_foldl_xor_range (n : Nat) (chosen : Nat → Bool) (v : Nat → Nat) (i : Nat) :
    ((List.range n).foldl (fun acc k => if chosen k then acc ^^^ v k else acc) 0).testBit i =
      xorOver n fun k => chosen k && (v k).testBit i := by
  induction n with
  | zero => simp
  | succ n ih =>
    rw [List.range_succ, List.foldl_append, xorOver_succ, ← ih]
    cases h : chosen n <;> simp [h]

/-- Position `k` enters a syndrome as the number `k mod 2^PL`: bit `i` of `k` says whether check `i` covers it. -/
theorem syndromeCalculator_toNat (c : Config) (w : BitVec c.cl) :
    (syndromeCalculator c w).toNat =
      (List.range c.cl).foldl (fun acc k => if w.getLsbD k then acc ^^^ (k % 2 ^ c.pl) else acc) 0 := by
  apply Nat.eq_of_testBit_eq; intro i
  rw [testBit_foldl_xor_range, BitVec.testBit_toNat]
  by_cases hi : i < c.pl
  · rw [syndromeCalculator_getLsbD_of_lt w hi]
    refine xorOver_congr fun k _ => ?_
    rw [Nat.testBit_mod_two_pow, decide_eq_true hi, Bool.true_and, natBit_eq_testBit, Bool.and_comm]
  · rw [BitVec.getLsbD_of_ge _ _ (Nat.not_lt.1 hi), ← xorOver_false c.cl]
    refine xorOver_congr fun k _ => ?_
    rw [Nat.testBit_mod_two_pow, decide_eq_false hi, Bool.false_and, Bool.and_false]

/-- The received syndrome is the clean one and the error pattern's, exclusive-ored. -/
theorem syndromeCalculator_channel_hammingEncoder {c : Config} (d : BitVec c.dl) (e : BitVec c.cl) :
    syndromeCalculator c (channel c (hammingEncoder c d) e) = cleanSyndrome c d ^^^ syndromeCalculator c e :=
  syndromeCalculator_xor c _ e

/-- The received data field is the data word with the error pattern's own data field exclusive-ored onto it. -/
theorem dataField_channel_hammingEncoder {c : Config} (d : BitVec c.dl) (e : BitVec c.cl) :
    dataField c (channel c (hammingEncoder c d) e) = d ^^^ dataField c e := by
  rw [channel, dataField_xor, dataField_hammingEncoder]

/-- The worked example of rule R49: with bits 1 and 3 of the codeword of 51 flipped, syndrome 2 locates position 1. -/
theorem hammingDecoder_reference_51_channel_10 :
    hammingDecoder Config.reference
      (channel Config.reference (hammingEncoder Config.reference (BitVec.ofNat _ 51)) (BitVec.ofNat _ 0b1010)) =
        (BitVec.ofNat _ 59, some 1) := by
  have hlocated : errorLocator Config.reference (syndromeCalculator Config.reference (channel Config.reference
      (hammingEncoder Config.reference (BitVec.ofNat _ 51)) (BitVec.ofNat _ 0b1010))) = some 1 :=
    errorLocator_eq_some.2 (by decide)
  rw [hammingDecoder_of_some hlocated, dataField_channel_hammingEncoder, dataField_ofNat]
  rfl

/-- Settles O36: SYNDROME is linear and each set bit of the error pattern adds its position, so the decoder's answer is
the locator's on the sum of the two syndromes. -/
theorem anyErrorPatternLaw : Obligations.AnyErrorPatternLaw := by
  unfold Obligations.AnyErrorPatternLaw
  refine ⟨fun c d e => ?_, hammingDecoder_reference_51_channel_10⟩
  have hsyndrome := syndromeCalculator_channel_hammingEncoder d e
  refine ⟨hsyndrome, syndromeCalculator_toNat c e, fun j hpow => ?power, fun hpow => ?other⟩
  case power =>
    rw [← hsyndrome] at hpow
    rw [hammingDecoder_of_some (errorLocator_eq_some.2 hpow), dataField_channel_hammingEncoder]
  case other =>
    rw [← hsyndrome] at hpow
    rw [hammingDecoder_of_none (errorLocator_eq_none_iff.2 hpow), dataField_channel_hammingEncoder]

end Sys2Proof.Machine
end

section
/-! SUPPORT. The source's worked example: 51 is encoded, bit 4 is flipped, the result is decoded (45_properties.md rule
R51). -/

namespace Sys2Proof.Machine

/-- A flip of a position of the codeword is that position alone on the channel. -/
theorem flipBit_of_lt {c : Config} (w : BitVec c.cl) {k : Nat} (h : k < c.cl) :
    flipBit c w k = .next (channel c w (oneHot c.cl k)) :=
  if_pos (decide_eq_true h)

/-- All five checks of the clean codeword of 51 pass. -/
theorem cleanSyndrome_reference_51 : cleanSyndrome Config.reference (BitVec.ofNat _ 51) = 0#Config.reference.pl := by
  decide

/-- Settles O37: the chain of the worked examples of rules R34, R37, R40 and R42, with the flip of bit 4 between them
that takes 51 to 35. -/
theorem workedExampleGivesThirtyNineAndTwo : Obligations.WorkedExampleGivesThirtyNineAndTwo := by
  unfold Obligations.WorkedExampleGivesThirtyNineAndTwo
  refine ⟨by decide, by decide, BitVec.eq_of_toNat_eq hammingEncoder_reference_51, cleanSyndrome_reference_51, ?flip,
    BitVec.eq_of_toNat_eq syndromeCalculator_reference_35, errorLocator_reference_4, hammingDecoder_reference_35⟩
  case flip =>
    rw [flipBit_of_lt _ (by decide)]
    rfl

end Sys2Proof.Machine
end

section
/-! SUPPORT. The uncorrectable patterns, which the ports show as syndrome 0 (60_exceptions.md rule R55). -/

namespace Sys2Proof.Machine

/-- A located position puts the syndrome in the class `located`, so the other two classes locate nothing. -/
theorem errorLocator_eq_none_of_decodeCase {c : Config} {s : BitVec c.pl}
    (h : decodeCase c s = .uncorrectablePattern ∨ decodeCase c s = .noErrorDetected) : errorLocator c s = none := by
  refine Option.eq_none_iff_forall_ne_some.2 fun k hsome => ?_
  rw [decodeCase_of_some hsome] at h
  rcases h with h | h <;> cases h

/-- The class holds the syndromes that locate nothing, 0 apart. -/
theorem decodeCase_eq_uncorrectablePattern_iff {c : Config} {s : BitVec c.pl} :
    decodeCase c s = .uncorrectablePattern ↔ s ≠ 0#c.pl ∧ ¬ IsPowerOfTwo s.toNat := by
  rw [← errorLocator_eq_none_iff]
  refine ⟨fun hcase => ⟨?nonzero, ?none⟩, fun ⟨hne, hnone⟩ => decodeCase_of_none hne hnone⟩
  case nonzero =>
    rintro rfl
    rw [decodeCase_zero] at hcase
    cases hcase
  case none => exact errorLocator_eq_none_of_decodeCase (.inl hcase)

/-- A syndrome strictly between two successive powers of two is uncorrectable. -/
theorem decodeCase_of_lt_of_lt {c : Config} {s : BitVec c.pl} {k : Nat} (hlo : 2 ^ k < s.toNat)
    (hhi : s.toNat < 2 ^ (k + 1)) : decodeCase c s = .uncorrectablePattern := by
  refine decodeCase_eq_uncorrectablePattern_iff.2 ⟨?_, not_isPowerOfTwo_of_lt_of_lt hlo hhi⟩
  rintro rfl
  simp at hlo

/-- A codeword of syndrome 0 receives the syndrome of the error pattern alone. -/
theorem syndromeCalculator_hammingEncoder_xor_of_clean {c : Config} {d : BitVec c.dl} (e : BitVec c.cl)
    (h : cleanSyndrome c d = 0#c.pl) :
    syndromeCalculator c (hammingEncoder c d ^^^ e) = syndromeCalculator c e := by
  rw [← BitVec.zero_xor (x := syndromeCalculator c e), ← h]
  exact syndromeCalculator_channel_hammingEncoder d e

/-- Settles O27: both classes locate nothing, so the outputs are those of R43's first case. The clean codeword of 16 has
syndrome 9, and the flip of position 3 in the codeword of 51, whose syndrome is 0, has syndrome 3. -/
theorem uncorrectablePatternRaisesNothing : Obligations.UncorrectablePatternRaisesNothing := by
  unfold Obligations.UncorrectablePatternRaisesNothing
  refine ⟨fun s => ⟨decodeCase_eq_uncorrectablePattern_iff, fun hcase => ?outputs⟩, ?clean, ?flipped⟩
  case outputs => exact exec_decode_of_none (errorLocator_eq_none_of_decodeCase hcase)
  case clean => exact decodeCase_of_lt_of_lt (k := 3) (by decide) (by decide)
  case flipped =>
    rw [syndromeCalculator_hammingEncoder_xor_of_clean _ cleanSyndrome_reference_51]
    exact decodeCase_of_lt_of_lt (k := 1) (by decide) (by decide)

end Sys2Proof.Machine
end

section
/-! SUPPORT. ENCODE in closed form: its parity bits, and exclusive-or of data words (41_hamming_encoder.md rule R35). -/

namespace Sys2Proof.Machine

/-- Parity bit `p` is the exclusive-or of the data bits whose index has bit `p` set. -/
theorem hammingEncoder_getLsbD_dl_add {c : Config} (d : BitVec c.dl) {p : Nat} (hp : p < c.pl) :
    (hammingEncoder c d).getLsbD (c.dl + p) = xorOver c.dl fun i => natBit i p && d.getLsbD i := by
  rw [hammingEncoder_getLsbD]
  refine xorOver_congr fun i hi => ?_
  rw [contrib_getLsbD_dl_add hi, decide_eq_true hp, Bool.true_and, Bool.and_comm]

/-- No data index has a bit at or above `M`, so the parity bits there sum nothing. -/
theorem hammingEncoder_getLsbD_dl_add_of_m_le {c : Config} (d : BitVec c.dl) {p : Nat} (hp : c.m ≤ p) :
    (hammingEncoder c d).getLsbD (c.dl + p) = false := by
  rw [hammingEncoder_getLsbD, ← xorOver_false c.dl]
  refine xorOver_congr fun i hi => ?_
  rw [contrib_getLsbD_dl_add hi, natBit_of_m_le hi hp, Bool.and_false, Bool.and_false]

/-- ENCODE is linear: every codeword bit is an exclusive-or of data bits. -/
theorem hammingEncoder_xor (c : Config) (a b : BitVec c.dl) :
    hammingEncoder c (a ^^^ b) = hammingEncoder c a ^^^ hammingEncoder c b := by
  apply BitVec.eq_of_getLsbD_eq; intro j _
  rw [BitVec.getLsbD_xor, hammingEncoder_getLsbD, hammingEncoder_getLsbD, hammingEncoder_getLsbD, ← xorOver_xor]
  refine xorOver_congr fun i _ => ?_
  rw [BitVec.getLsbD_xor, Bool.and_xor_distrib_right]

/-- A flipped data bit enters a parity bit exactly when its contribution does. -/
theorem hammingEncoder_xor_oneHot_getLsbD {c : Config} (d : BitVec c.dl) {i : Nat} (hi : i < c.dl) (j : Nat) :
    (hammingEncoder c (d ^^^ oneHot c.dl i)).getLsbD j =
      Bool.xor ((hammingEncoder c d).getLsbD j) ((contrib c i).getLsbD j) := by
  rw [hammingEncoder_xor, hammingEncoder_oneHot hi, BitVec.getLsbD_xor]

/-- Settles O10: the data field is kept, and in the parity field each contribution is its index. -/
theorem encodeClosedForm : Obligations.EncodeClosedForm := by
  unfold Obligations.EncodeClosedForm
  exact fun s => ⟨hammingEncoder s.cfg s.encDataIn, exec_encode s, fun _ => hammingEncoder_getLsbD_of_lt _,
    fun _ => hammingEncoder_getLsbD_dl_add _⟩

/-- Settles O11: the data field inverts ENCODE, which makes it injective, and the loop is linear. -/
theorem encodeIsRecoverableInjectiveLinear : Obligations.EncodeIsRecoverableInjectiveLinear := by
  unfold Obligations.EncodeIsRecoverableInjectiveLinear
  intro c
  have hinv : Function.LeftInverse (dataField c) (hammingEncoder c) := dataField_hammingEncoder c
  exact ⟨hinv, fun _ _ hab => hinv.injective hab, hammingEncoder_xor c, hammingEncoder_zero c⟩

/-- Settles O12: flipping data bit `i` adds its contribution, which in the parity field is the index `i`. -/
theorem encodeParityReach : Obligations.EncodeParityReach := by
  unfold Obligations.EncodeParityReach
  refine fun c d => ⟨fun p => hammingEncoder_getLsbD_dl_add_of_m_le d, fun i p hi hp => ⟨?enters, ?below⟩,
    fun p => ?zero⟩
  case enters =>
    rw [hammingEncoder_xor_oneHot_getLsbD d hi, contrib_getLsbD_dl_add hi, decide_eq_true hp, Bool.true_and]
  case below =>
    intro hbit
    by_contra hm
    rw [natBit_of_m_le hi (Nat.not_lt.1 hm)] at hbit
    exact Bool.false_ne_true hbit
  case zero =>
    rw [hammingEncoder_xor_oneHot_getLsbD d c.dl_pos, contrib_getLsbD_dl_add c.dl_pos, natBit_zero, Bool.and_false,
      Bool.xor_false]

end Sys2Proof.Machine
end

section
/-! SUPPORT. The output ports stay in reach (30_encoding.md rule R23; 43_error_locator.md rule R41 item 3). -/

namespace Sys2Proof.Machine

/-- The port of a position is in reach when the position, if there is one, is below the bound. -/
theorem positionInReach_errorPositionPort {c : Config} {p : Option Nat} {bound : Nat}
    (h : ∀ k, p = some k → k < bound) : PositionInReach c (errorPositionPort c p) bound := by
  cases p with
  | none => exact .inl rfl
  | some k => exact .inr ⟨k, h k rfl, rfl⟩

/-- LOCATE gives positions below `PL` only. -/
theorem positionInReach_errorLocator (c : Config) (s : BitVec c.pl) :
    PositionInReach c (errorPositionPort c (errorLocator c s)) c.pl :=
  positionInReach_errorPositionPort fun _ => errorLocator_lt

/-- DECODE locates on the syndrome of a codeword, so its positions are below `M` too. -/
theorem positionInReach_hammingDecoder (c : Config) (w : BitVec c.cl) :
    PositionInReach c (errorPositionPort c (hammingDecoder c w).2) (min c.pl c.m) :=
  positionInReach_errorPositionPort fun _ => lt_min_of_errorLocator_syndromeCalculator

/-- A block delivers values in reach whatever its input is, and leaves the other blocks' ports as they are. -/
theorem outputsInReach_evaluated (i : Instr) {s : State} (h : OutputsInReach s) :
    OutputsInReach (evaluated i s) := by
  obtain ⟨hcodeword, hsyndrome, hposition, hdecoded⟩ := h
  cases i with
  | encode =>
    exact ⟨fun p hp _ => hammingEncoder_getLsbD_dl_add_of_m_le s.encDataIn hp, hsyndrome, hposition, hdecoded⟩
  | syndrome =>
    exact ⟨hcodeword, fun i hi _ => syndromeCalculator_getLsbD_of_m_le s.synCodewordIn hi, hposition, hdecoded⟩
  | locate => exact ⟨hcodeword, hsyndrome, positionInReach_errorLocator s.cfg s.locSyndromeIn, hdecoded⟩
  | decode => exact ⟨hcodeword, hsyndrome, hposition, positionInReach_hammingDecoder s.cfg s.decCodewordIn⟩

/-- Ports that follow their inputs are in reach, whatever the inputs are. -/
theorem outputsInReach_settle (s : State) : OutputsInReach s.settle :=
  ⟨fun _ hp _ => hammingEncoder_getLsbD_dl_add_of_m_le s.encDataIn hp,
    fun _ hi _ => syndromeCalculator_getLsbD_of_m_le s.synCodewordIn hi,
    positionInReach_errorLocator s.cfg s.locSyndromeIn, positionInReach_hammingDecoder s.cfg s.decCodewordIn⟩

theorem outputsInReach_of_settled {s : State} (h : Settled s) : OutputsInReach s :=
  (settle_eq_self_iff s).2 h ▸ outputsInReach_settle s

/-- Settles O50: a step settles every port, and an evaluation its own block's. -/
theorem stepKeepsOutputsInReach : Obligations.StepKeepsOutputsInReach := by
  unfold Obligations.StepKeepsOutputsInReach
  refine ⟨fun s t _ hstep => ?step, fun i s t h hexec => ?exec⟩
  case step =>
    rw [step_eq_next] at hstep
    cases hstep
    exact outputsInReach_settle s
  case exec =>
    obtain rfl := exec_next_iff.1 hexec
    exact outputsInReach_evaluated i h

end Sys2Proof.Machine
end

section
/-! SUPPORT. Sums of the data bits of a cover set, and the parity equations of four data lengths (41_hamming_encoder.md
rule R35). -/

namespace Sys2Proof.Machine

theorem and_xorOver (b : Bool) (n : Nat) (e : Nat → Bool) : (b && xorOver n e) = xorOver n fun j => b && e j := by
  cases b with
  | false => exact (xorOver_false n).symm
  | true => rfl

/-- A sum over a cover set, with the set listed. -/
theorem xorOver_and_eq_countP {n : Nat} {cover : Nat → Bool} {l : List Nat} (h : (List.range n).filter cover = l)
    (e : Nat → Bool) : (xorOver n fun j => cover j && e j) = (l.countP e % 2 == 1) := by
  subst h
  simp only [xorOver, List.countP_filter, Bool.and_comm]

/-- The exclusive-or of the bits at `j` and at the members of `l`, bracketed as the rules' tables write it. -/
def xorListed (e : Nat → Bool) (j : Nat) (l : List Nat) : Bool := l.foldl (fun sum k => Bool.xor sum (e k)) (e j)

theorem countP_mod_two_eq_xorListed (e : Nat → Bool) (j : Nat) (l : List Nat) :
    ((j :: l).countP e % 2 == 1) = xorListed e j l := by
  induction l using List.reverseRecOn with
  | nil => cases h : e j <;> simp [xorListed, h]
  | append_singleton l k ih =>
    rw [xorListed, List.foldl_append, List.foldl_cons, List.foldl_nil, ← xorListed, ← ih,
      ← List.cons_append, List.countP_append, List.countP_singleton]
    generalize (j :: l).countP e = count
    rcases Nat.mod_two_eq_zero_or_one count with h | h <;> cases e k <;> simp [Nat.add_mod, h]

/-- A sum over a cover set is that of its listed members. -/
theorem xorOver_and_eq_xorListed {n : Nat} {cover : Nat → Bool} (j : Nat) (l : List Nat)
    (h : (List.range n).filter cover = j :: l) (e : Nat → Bool) :
    (xorOver n fun i => cover i && e i) = xorListed e j l := by
  rw [xorOver_and_eq_countP h, countP_mod_two_eq_xorListed]

/-- The closed form for a given data length, with the cover set of parity bit `p` listed. -/
theorem hammingEncoder_getLsbD_of_cover {c : Config} {n : Nat} (hn : c.dl = n) (d : BitVec c.dl) (p j : Nat)
    (l : List Nat) (hp : p < parityLength n) (h : (List.range n).filter (natBit · p) = j :: l) :
    (hammingEncoder c d).getLsbD (n + p) = xorListed d.getLsbD j l := by
  subst hn
  rw [hammingEncoder_getLsbD_dl_add d hp, xorOver_and_eq_xorListed j l h]

/-- Settles O13: the closed form, with the cover sets of the table. -/
theorem encodeParityEquations : Obligations.EncodeParityEquations := by
  unfold Obligations.EncodeParityEquations
  refine fun c d => ⟨fun hn => ?three, fun hn => ⟨?_, ?_, ?_⟩, fun hn => ⟨?_, ?_⟩, fun hn => ?eleven⟩
  case three => exact hammingEncoder_getLsbD_of_cover hn d 0 1 [] (by decide) (by decide)
  · exact hammingEncoder_getLsbD_of_cover hn d 0 1 [3] (by decide) (by decide)
  · exact hammingEncoder_getLsbD_of_cover hn d 1 2 [3] (by decide) (by decide)
  · exact hammingEncoder_getLsbD_of_cover hn d 2 4 [] (by decide) (by decide)
  · exact hammingEncoder_getLsbD_of_cover hn d 0 1 [3, 5] (by decide) (by decide)
  · exact hammingEncoder_getLsbD_of_cover hn d 1 2 [3] (by decide) (by decide)
  case eleven =>
    have hm : c.m = 4 := by rw [Config.m, hn]; decide
    have habove := hammingEncoder_getLsbD_dl_add_of_m_le d hm.le
    rw [hn] at habove
    exact ⟨hammingEncoder_getLsbD_of_cover hn d 0 1 [3, 5, 7, 9] (by decide) (by decide),
      hammingEncoder_getLsbD_of_cover hn d 1 2 [3, 6, 7, 10] (by decide) (by decide),
      hammingEncoder_getLsbD_of_cover hn d 2 4 [5, 6, 7] (by decide) (by decide),
      hammingEncoder_getLsbD_of_cover hn d 3 8 [9, 10] (by decide) (by decide), habove⟩

end Sys2Proof.Machine
end

section
/-! SUPPORT. The laws of SYNDROME: the value of one flipped position, and the size of each cover set
(42_syndrome_calculator.md rule R38). -/

namespace Sys2Proof.Machine

/-- The syndrome of one set position is that position, cut to `PL` bits. -/
theorem syndromeCalculator_oneHot {c : Config} {k : Nat} (hk : k < c.cl) :
    syndromeCalculator c (oneHot c.cl k) = BitVec.ofNat c.pl k := by
  apply BitVec.eq_of_getLsbD_eq; intro i hi
  rw [syndromeCalculator_oneHot_getLsbD hk hi, BitVec.getLsbD_ofNat, decide_eq_true hi, Bool.true_and,
    natBit_eq_testBit]

theorem ofNat_mod_two_pow (w k : Nat) : BitVec.ofNat w (k % 2 ^ w) = BitVec.ofNat w k := by
  apply BitVec.eq_of_toNat_eq
  rw [BitVec.toNat_ofNat, BitVec.toNat_ofNat, Nat.mod_mod]

/-- The single-bit law: flipping position `k` adds the low `PL` bits of `k` to the syndrome. -/
theorem syndromeCalculator_xor_oneHot {c : Config} (w : BitVec c.cl) {k : Nat} (hk : k < c.cl) :
    syndromeCalculator c (w ^^^ oneHot c.cl k) = syndromeCalculator c w ^^^ BitVec.ofNat c.pl (k % 2 ^ c.pl) := by
  rw [syndromeCalculator_xor, syndromeCalculator_oneHot hk, ofNat_mod_two_pow]

/-- Settles O16: every check is an exclusive-or of codeword bits. -/
theorem syndromeIsLinear : Obligations.SyndromeIsLinear := by
  unfold Obligations.SyndromeIsLinear
  exact fun c => ⟨syndromeCalculator_xor c, syndromeCalculator_zero c⟩

/-- Settles O17: linearity, and the syndrome of one set position. -/
theorem syndromeSingleBitLaw : Obligations.SyndromeSingleBitLaw := by
  unfold Obligations.SyndromeSingleBitLaw
  refine fun c k hk => ⟨fun i => syndromeCalculator_oneHot_getLsbD hk, ?value,
    fun w => syndromeCalculator_xor_oneHot w hk, ?zero, fun k' hk' hmod w => ?alike⟩
  case value => rw [syndromeCalculator_oneHot hk, BitVec.toNat_ofNat]
  case zero => rintro rfl w; exact syndromeCalculator_xor_oneHot_zero c w
  case alike => rw [syndromeCalculator_xor_oneHot w hk, syndromeCalculator_xor_oneHot w hk', hmod]

/-- Below `2^m` half of the numbers have bit `i < m` set: the upper half of the range has bit `m - 1` set and repeats
the lower half in the bits below it. -/
theorem two_mul_countP_natBit {i m : Nat} (hi : i < m) :
    2 * (List.range (2 ^ m)).countP (fun j => natBit j i) = 2 ^ m := by
  induction m with
  | zero => omega
  | succ m ih =>
    have hsplit : (List.range (2 ^ (m + 1))).countP (fun j => natBit j i) =
        (List.range (2 ^ m)).countP (fun j => natBit j i) +
          (List.range (2 ^ m)).countP (fun j => natBit (2 ^ m + j) i) := by
      rw [Nat.pow_succ, Nat.mul_two, List.range_add, List.countP_append, List.countP_map]
      rfl
    rw [hsplit, Nat.pow_succ]
    rcases Nat.lt_succ_iff_lt_or_eq.1 hi with hlt | rfl
    · have hrepeat : ∀ j, natBit (2 ^ m + j) i = natBit j i := fun j => by
        rw [natBit_eq_testBit, natBit_eq_testBit, Nat.testBit_two_pow_add_gt hlt]
      have := ih hlt
      simp only [hrepeat]
      omega
    · have hlow : (List.range (2 ^ i)).countP (fun j => natBit j i) = 0 :=
        List.countP_eq_zero.2 fun j hj => by rw [natBit_of_lt (List.mem_range.1 hj)]; exact Bool.false_ne_true
      have hhigh : (List.range (2 ^ i)).countP (fun j => natBit (2 ^ i + j) i) = 2 ^ i := by
        rw [List.countP_eq_length.2, List.length_range]
        intro j hj
        rw [natBit_eq_testBit, Nat.testBit_two_pow_add_eq, Nat.testBit_lt_two_pow (List.mem_range.1 hj), Bool.not_false]
      omega

/-- Settles O18: the positions are the numbers below `2^M`. -/
theorem syndromeCoverSizes : Obligations.SyndromeCoverSizes := by
  unfold Obligations.SyndromeCoverSizes
  refine fun c => ⟨fun i hi => ?half, fun i hi => List.countP_eq_zero.2 fun j hj => ?none,
    fun i w => syndromeCalculator_getLsbD_of_m_le w⟩
  case half => rw [c.cl_eq_two_pow]; exact two_mul_countP_natBit hi
  case none => rw [natBit_position_of_m_le (List.mem_range.1 hj) hi]; exact Bool.false_ne_true

end Sys2Proof.Machine
end

section
/-! SUPPORT. A codeword as its two fields, and the syndrome of a clean codeword over its parity field (30_encoding.md
rule R18; 45_properties.md rule R47). -/

namespace Sys2Proof.Machine

theorem parityField_getLsbD {c : Config} (w : BitVec c.cl) {p : Nat} (hp : p < c.pl) :
    (parityField c w).getLsbD p = w.getLsbD (c.dl + p) := by
  rw [parityField, BitVec.getLsbD_extractLsb', decide_eq_true hp, Bool.true_and]

/-- The parity field is the codeword divided by `2^DL`. -/
theorem parityField_toNat (c : Config) (w : BitVec c.cl) : (parityField c w).toNat = w.toNat / 2 ^ c.dl := by
  rw [parityField, BitVec.extractLsb'_toNat, Nat.shiftRight_eq_div_pow]
  refine Nat.mod_eq_of_lt (Nat.div_lt_of_lt_mul ?_)
  rw [← Nat.pow_add, c.dl_add_pl]
  exact w.isLt

/-- Settles O28: the two fields are the quotient and the remainder by `2^DL`. -/
theorem codewordIsParityAboveData : Obligations.CodewordIsParityAboveData := by
  unfold Obligations.CodewordIsParityAboveData
  refine fun c w => ⟨c.dl_add_pl.symm, fun i hi => ?data, fun p => parityField_getLsbD w, ?value⟩
  case data => rw [dataField_getLsbD, decide_eq_true hi, Bool.true_and]
  case value => rw [parityField_toNat, dataField_toNat, Nat.div_add_mod']

/-- A sum over the positions is one over the data field and one over the parity field. -/
theorem xorOver_cl (c : Config) (e : Nat → Bool) :
    xorOver c.cl e = Bool.xor (xorOver c.dl e) (xorOver c.pl fun p => e (c.dl + p)) := by
  rw [← c.dl_add_pl, xorOver_add]

/-- A check sums the data positions, which is parity bit `i` again, and then the parity positions. -/
theorem cleanSyndrome_getLsbD {c : Config} (d : BitVec c.dl) {i : Nat} (hi : i < c.pl) :
    (cleanSyndrome c d).getLsbD i =
      Bool.xor ((hammingEncoder c d).getLsbD (c.dl + i))
        (xorOver c.pl fun p => natBit (c.dl + p) i && (hammingEncoder c d).getLsbD (c.dl + p)) := by
  have hdata : xorOver c.dl (fun j => natBit j i && (hammingEncoder c d).getLsbD j) =
      (hammingEncoder c d).getLsbD (c.dl + i) := by
    rw [hammingEncoder_getLsbD_dl_add d hi]
    exact xorOver_congr fun j hj => by rw [hammingEncoder_getLsbD_of_lt d hj]
  rw [cleanSyndrome, syndromeCalculator_getLsbD_of_lt _ hi, xorOver_cl, hdata]

/-- Settles O29: the check's sum, cut where the parity field begins. -/
theorem cleanSyndromeFormula : Obligations.CleanSyndromeFormula := by
  unfold Obligations.CleanSyndromeFormula
  exact fun c d i => cleanSyndrome_getLsbD d

end Sys2Proof.Machine
end

section
/-! SUPPORT. The round trip of a clean codeword (45_properties.md rule R47). -/

namespace Sys2Proof.Machine

/-- A clean syndrome that locates nothing gives the data word back. -/
theorem hammingDecoder_hammingEncoder_of_none {c : Config} {d : BitVec c.dl}
    (h : errorLocator c (cleanSyndrome c d) = none) : hammingDecoder c (hammingEncoder c d) = (d, none) := by
  rw [hammingDecoder_of_none h, dataField_hammingEncoder]

/-- A clean syndrome that locates `k` has bit `k` of the data word flipped. -/
theorem hammingDecoder_hammingEncoder_of_some {c : Config} {d : BitVec c.dl} {k : Nat}
    (h : errorLocator c (cleanSyndrome c d) = some k) :
    hammingDecoder c (hammingEncoder c d) = (d ^^^ oneHot c.dl k, some k) := by
  rw [hammingDecoder_of_some h, dataField_hammingEncoder]

/-- The counterexample to the source's claim: the codeword of 8 has syndrome 4. -/
theorem hammingDecoder_hammingEncoder_reference_8 :
    hammingDecoder Config.reference (hammingEncoder Config.reference (BitVec.ofNat _ 8)) =
      (BitVec.ofNat _ 12, some 2) := by
  have hlocated : errorLocator Config.reference (cleanSyndrome Config.reference (BitVec.ofNat _ 8)) = some 2 :=
    errorLocator_eq_some.2 (by decide)
  rw [hammingDecoder_hammingEncoder_of_some hlocated]
  rfl

/-- Settles O30: the decoder's answer on a clean codeword is the locator's on the clean syndrome. -/
theorem roundTripHoldsUnlessCleanSyndromeIsPowerOfTwo :
    Obligations.RoundTripHoldsUnlessCleanSyndromeIsPowerOfTwo := by
  unfold Obligations.RoundTripHoldsUnlessCleanSyndromeIsPowerOfTwo
  refine ⟨fun c d => ⟨?_, fun k hk => hammingDecoder_hammingEncoder_of_some (errorLocator_eq_some.2 hk)⟩,
    hammingDecoder_hammingEncoder_reference_8⟩
  rw [← errorLocator_eq_none_iff]
  exact ⟨congrArg Prod.snd, hammingDecoder_hammingEncoder_of_none⟩

/-- Settles O33: the one parity bit stands at the odd position `DL`, so check 0 sums it twice. -/
theorem oneParityBitRoundTripAlwaysHolds : Obligations.OneParityBitRoundTripAlwaysHolds := by
  unfold Obligations.OneParityBitRoundTripAlwaysHolds
  intro c hpl d
  have hodd : c.dl % 2 = 1 := by
    have hsum : c.dl + c.pl = codewordLength c.dl := c.dl_add_pl
    have hlt := c.pl_lt_dl
    have heven := two_dvd_codewordLength (dl := c.dl) (by omega)
    omega
  have hclean : cleanSyndrome c d = 0#c.pl := by
    apply BitVec.eq_of_getLsbD_eq; intro i hi
    obtain rfl : i = 0 := by omega
    have hbit : natBit c.dl 0 = true := by simp [natBit, hodd]
    rw [cleanSyndrome_getLsbD d hi, hpl]
    simp [xorOver_succ, hbit]
  exact ⟨hodd, hclean, hammingDecoder_hammingEncoder_of_none
    (errorLocator_eq_none_of_zero (by rw [hclean, BitVec.toNat_zero]))⟩

end Sys2Proof.Machine
end

section
/-! SUPPORT. The clean-syndrome equations of three data lengths, and the round trips of five data bits (45_properties.md
rule R47). -/

namespace Sys2Proof.Machine

/-- Data bit `j` enters check `i` of a clean codeword an odd number of times: at its own position, and through the
parity bits it enters; `dl` and `pl` are the lengths of the two fields. -/
def entersCleanCheck (dl pl i j : Nat) : Bool :=
  Bool.xor (natBit j i) (xorOver pl fun p => natBit (dl + p) i && natBit j p)

/-- A chosen sum of sums over one range, member by member. -/
theorem xorOver_and_xorOver (n w : Nat) (chosen : Nat → Bool) (cover : Nat → Nat → Bool) (e : Nat → Bool) :
    (xorOver w fun p => chosen p && xorOver n fun j => cover j p && e j) =
      xorOver n fun j => (xorOver w fun p => chosen p && cover j p) && e j := by
  induction w with
  | zero => simp only [xorOver_zero, Bool.false_and, xorOver_false]
  | succ w ih =>
    rw [xorOver_succ, ih, and_xorOver, ← xorOver_xor]
    exact xorOver_congr fun j _ => by rw [xorOver_succ, Bool.and_xor_distrib_right, Bool.and_assoc]

/-- A clean check as a sum of data bits. -/
theorem cleanSyndrome_getLsbD_eq_xorOver_data {c : Config} (d : BitVec c.dl) {i : Nat} (hi : i < c.pl) :
    (cleanSyndrome c d).getLsbD i = xorOver c.dl fun j => entersCleanCheck c.dl c.pl i j && d.getLsbD j := by
  have hparity : (xorOver c.pl fun p => natBit (c.dl + p) i && (hammingEncoder c d).getLsbD (c.dl + p)) =
      xorOver c.pl fun p => natBit (c.dl + p) i && xorOver c.dl fun j => natBit j p && d.getLsbD j :=
    xorOver_congr fun p hp => by rw [hammingEncoder_getLsbD_dl_add d hp]
  rw [cleanSyndrome_getLsbD d hi, hammingEncoder_getLsbD_dl_add d hi, hparity, xorOver_and_xorOver, ← xorOver_xor]
  exact xorOver_congr fun j _ => (Bool.and_xor_distrib_right _ _ _).symm

/-- The equation of a clean check for a given data length, with the data bits that enter it listed. -/
theorem cleanSyndrome_getLsbD_of_cover {c : Config} {n : Nat} (hn : c.dl = n) (d : BitVec c.dl) (i j : Nat)
    (l : List Nat) (hi : i < parityLength n)
    (h : (List.range n).filter (entersCleanCheck n (parityLength n) i) = j :: l) :
    (cleanSyndrome c d).getLsbD i = xorListed d.getLsbD j l := by
  subst hn
  rw [cleanSyndrome_getLsbD_eq_xorOver_data d hi]
  exact xorOver_and_eq_xorListed j l h _

/-- Settles O31: each check sums the data bits that enter it, as the table lists them. -/
theorem cleanSyndromeEquations : Obligations.CleanSyndromeEquations := by
  unfold Obligations.CleanSyndromeEquations
  refine fun c d => ⟨fun hn => ⟨?_, ?_, ?_⟩, fun hn => ⟨?_, ?_⟩, fun hn => ⟨?_, ?_, ?_, ?_, ?above⟩⟩
  · exact cleanSyndrome_getLsbD_of_cover hn d 0 4 [] (by decide) (by decide)
  · exact cleanSyndrome_getLsbD_of_cover hn d 1 4 [] (by decide) (by decide)
  · exact cleanSyndrome_getLsbD_of_cover hn d 2 1 [2] (by decide) (by decide)
  · exact cleanSyndrome_getLsbD_of_cover hn d 0 1 [2, 5] (by decide) (by decide)
  · exact cleanSyndrome_getLsbD_of_cover hn d 1 1 [3, 5] (by decide) (by decide)
  · exact cleanSyndrome_getLsbD_of_cover hn d 0 4 [5, 6, 7] (by decide) (by decide)
  · exact cleanSyndrome_getLsbD_of_cover hn d 1 1 [2, 5, 6, 8] (by decide) (by decide)
  · exact cleanSyndrome_getLsbD_of_cover hn d 2 2 [3, 6, 7, 8, 9] (by decide) (by decide)
  · exact cleanSyndrome_getLsbD_of_cover hn d 3 1 [2, 4, 7, 9, 10] (by decide) (by decide)
  case above =>
    have hm : c.m = 4 := by rw [Config.m, hn]; decide
    exact syndromeCalculator_getLsbD_of_m_le _ hm.le

/-- With five data bits the checks of a clean syndrome are `d4`, `d4` and `d1 ^ d2`. Checks 0 and 1 agree, so only
position 2 can be located: when they pass and check 2 fails. -/
theorem errorLocator_cleanSyndrome_of_five {c : Config} (hn : c.dl = 5) (d : BitVec c.dl) (k : Nat) :
    errorLocator c (cleanSyndrome c d) = some k ↔ k = 2 ∧ d.getLsbD 4 = false ∧ d.getLsbD 1 ≠ d.getLsbD 2 := by
  obtain ⟨hs0, hs1, hs2⟩ := (cleanSyndromeEquations c d).1 hn
  have hpl : c.pl = 3 := by rw [Config.pl, hn]; decide
  rw [errorLocator_eq_some_iff_getLsbD]
  constructor
  · rintro ⟨hk, hbits⟩
    have h0 := hs0.symm.trans (hbits 0 (by omega))
    have h1 := hs1.symm.trans (hbits 1 (by omega))
    have h2 := hs2.symm.trans (hbits 2 (by omega))
    obtain rfl | rfl | rfl : k = 0 ∨ k = 1 ∨ k = 2 := by omega
    · exact absurd (h0.symm.trans h1) (by decide)
    · exact absurd (h0.symm.trans h1) (by decide)
    · exact ⟨rfl, h0, by simpa using h2⟩
  · rintro ⟨rfl, h4, h12⟩
    refine ⟨by omega, fun i hi => ?_⟩
    obtain rfl | rfl | rfl : i = 0 ∨ i = 1 ∨ i = 2 := by omega
    · exact hs0.trans h4
    · exact hs1.trans h4
    · exact hs2.trans (by simpa using h12)

/-- Settles O32: position 2 is located exactly for the data words of the row, and nothing for the others. -/
theorem roundTripFailuresForFiveDataBits : Obligations.RoundTripFailuresForFiveDataBits := by
  unfold Obligations.RoundTripFailuresForFiveDataBits
  refine fun c d hn => ⟨fun h => ?fails, fun h => ?holds⟩
  case fails =>
    have hfour : oneHot c.dl 2 = BitVec.ofNat c.dl 4 := by rw [hn]; decide
    rw [hammingDecoder_hammingEncoder_of_some ((errorLocator_cleanSyndrome_of_five hn d 2).2 ⟨rfl, h⟩), hfour]
  case holds =>
    refine hammingDecoder_hammingEncoder_of_none (Option.eq_none_iff_forall_ne_some.2 fun k hk => ?_)
    obtain ⟨-, h4, h12⟩ := (errorLocator_cleanSyndrome_of_five hn d k).1 hk
    rcases h with h | h
    · rw [h4] at h; exact Bool.false_ne_true h
    · exact h12 h

end Sys2Proof.Machine
end

section
/-! SUPPORT. The result of DECODE for one flipped bit (45_properties.md rule R48). -/

namespace Sys2Proof.Machine

/-- A clean codeword with bit `k` flipped has the low `PL` bits of `k` added to its syndrome. -/
theorem syndromeCalculator_hammingEncoder_xor_oneHot {c : Config} (d : BitVec c.dl) {k : Nat} (hk : k < c.cl) :
    syndromeCalculator c (hammingEncoder c d ^^^ oneHot c.cl k) =
      cleanSyndrome c d ^^^ BitVec.ofNat c.pl (k % 2 ^ c.pl) :=
  syndromeCalculator_xor_oneHot _ hk

/-- `1 << k` is empty when `k` is beyond the width. -/
theorem oneHot_of_le {w k : Nat} (h : w ≤ k) : oneHot w k = 0#w := by
  apply BitVec.eq_of_getLsbD_eq; intro j hj
  rw [oneHot_getLsbD, decide_eq_false (by omega : j ≠ k), Bool.and_false, BitVec.getLsbD_zero]

/-- The flip shows in the received data field when it lands there. -/
theorem dataField_hammingEncoder_xor_oneHot {c : Config} (d : BitVec c.dl) (k : Nat) :
    dataField c (hammingEncoder c d ^^^ oneHot c.cl k) = if k < c.dl then d ^^^ oneHot c.dl k else d := by
  rw [dataField_xor, dataField_hammingEncoder, dataField_oneHot]
  split
  case isTrue => rfl
  case isFalse h => rw [oneHot_of_le (Nat.not_lt.1 h), BitVec.xor_zero]

/-- A flip that is located at its own position is undone: it lies in the data field. -/
theorem hammingDecoder_hammingEncoder_xor_oneHot_of_some_self {c : Config} {d : BitVec c.dl} {k : Nat}
    (h : errorLocator c (syndromeCalculator c (hammingEncoder c d ^^^ oneHot c.cl k)) = some k) :
    hammingDecoder c (hammingEncoder c d ^^^ oneHot c.cl k) = (d, some k) := by
  rw [hammingDecoder_of_some h, dataField_hammingEncoder_xor_oneHot, if_pos (lt_dl_of_errorLocator h),
    BitVec.xor_assoc, BitVec.xor_self, BitVec.xor_zero]

/-- The received syndrome is `2^k` exactly when the clean one is `2^k ^ k`. -/
theorem errorLocator_xor_ofNat_eq_some_self_iff {c : Config} (s : BitVec c.pl) (k : Nat) :
    errorLocator c (s ^^^ BitVec.ofNat c.pl (k % 2 ^ c.pl)) = some k ↔ k < c.pl ∧ s.toNat = 2 ^ k ^^^ k := by
  have hvalue : k < c.pl →
      ((s ^^^ BitVec.ofNat c.pl (k % 2 ^ c.pl)).toNat = 2 ^ k ↔ s.toNat = 2 ^ k ^^^ k) := fun hk => by
    have hlow : k < 2 ^ c.pl := hk.trans Nat.lt_two_pow_self
    rw [BitVec.toNat_xor, BitVec.toNat_ofNat, Nat.mod_mod, Nat.mod_eq_of_lt hlow]
    exact ⟨fun h => by rw [← h, Nat.xor_xor_cancel_right], fun h => by rw [h, Nat.xor_xor_cancel_right]⟩
  constructor
  · intro h
    have hk := errorLocator_lt h
    exact ⟨hk, (hvalue hk).1 (errorLocator_eq_some.1 h)⟩
  · rintro ⟨hk, h⟩
    exact errorLocator_eq_some.2 ((hvalue hk).2 h)

/-- Settles O34: the decoder's answer is the locator's on the clean syndrome with the flip's position added. -/
theorem singleFlipResultLaw : Obligations.SingleFlipResultLaw := by
  unfold Obligations.SingleFlipResultLaw
  intro c d k hk
  have hsyndrome := syndromeCalculator_hammingEncoder_xor_oneHot d hk
  refine ⟨fun j hpow => ?power, fun hpow => ?other, ?undone⟩
  case power =>
    rw [hammingDecoder_of_some (errorLocator_eq_some.2 (hsyndrome ▸ hpow)), dataField_hammingEncoder_xor_oneHot]
  case other =>
    rw [hammingDecoder_of_none (errorLocator_eq_none_iff.2 (hsyndrome ▸ hpow)), dataField_hammingEncoder_xor_oneHot]
  case undone =>
    rw [← errorLocator_xor_ofNat_eq_some_self_iff, ← hsyndrome]
    exact ⟨congrArg Prod.snd, hammingDecoder_hammingEncoder_xor_oneHot_of_some_self⟩

/-- Settles O35: the received syndrome is `k mod 2^PL`, which is never `2^k`. -/
theorem singleFlipOfZeroSyndromeWordIsNeverUndone : Obligations.SingleFlipOfZeroSyndromeWordIsNeverUndone := by
  unfold Obligations.SingleFlipOfZeroSyndromeWordIsNeverUndone
  intro c d k hk hclean
  obtain ⟨hpower, hother, -⟩ := singleFlipResultLaw c d k hk
  have ht : (cleanSyndrome c d ^^^ BitVec.ofNat c.pl (k % 2 ^ c.pl)).toNat = k % 2 ^ c.pl := by
    rw [hclean, BitVec.zero_xor, BitVec.toNat_ofNat, Nat.mod_mod]
  rw [ht] at hother
  have hne : ∀ j, k % 2 ^ c.pl = 2 ^ j → j ≠ k := by
    rintro j hj rfl
    have := Nat.mod_le j (2 ^ c.pl)
    have := @Nat.lt_two_pow_self j
    omega
  refine ⟨fun h => ?never, ?zero, fun j hj => ⟨hne j hj, hpower j (ht.trans hj)⟩, hother⟩
  case never =>
    have hlocated := errorLocator_eq_some.1 (congrArg Prod.snd h)
    rw [syndromeCalculator_hammingEncoder_xor_oneHot d hk, ht] at hlocated
    exact hne k hlocated rfl
  case zero =>
    rintro rfl
    rw [if_pos c.dl_pos] at hother
    exact hother fun h => h.ne_zero (Nat.zero_mod _)

end Sys2Proof.Machine
end

section
/-! SUPPORT. What an evaluation and a line do to the ports: settled blocks, and the order of evaluations (20_memory.md
rules R14, R15; 70_reset_and_hazards.md rule R59). -/

namespace Sys2Proof.Machine

theorem blockSettled_evaluated_self (i : Instr) (s : State) : BlockSettled i (evaluated i s) := by
  cases i with
  | encode => exact rfl
  | syndrome => exact rfl
  | locate => exact rfl
  | decode => exact ⟨rfl, rfl⟩

/-- A block is settled exactly when its evaluation changes nothing. -/
theorem evaluated_eq_self_iff {i : Instr} {s : State} : evaluated i s = s ↔ BlockSettled i s := by
  refine ⟨fun h => h ▸ blockSettled_evaluated_self i s, fun h => ?_⟩
  cases i with
  | encode => rw [evaluated, ← show s.encCodewordOut = _ from h]
  | syndrome => rw [evaluated, ← show s.synSyndromeOut = _ from h]
  | locate => rw [evaluated, ← show s.locErrorPosition = _ from h]
  | decode =>
    obtain ⟨hdata, hposition⟩ := h
    rw [evaluated, ← hdata, ← hposition]

/-- Evaluations write different ports, or the same ones with the same values, and none writes an input. -/
theorem evaluated_comm (i j : Instr) (s : State) : evaluated i (evaluated j s) = evaluated j (evaluated i s) := by
  cases i <;> cases j <;> rfl

theorem evaluated_evaluated_self (i : Instr) (s : State) : evaluated i (evaluated i s) = evaluated i s :=
  evaluated_eq_self_iff.2 (blockSettled_evaluated_self i s)

/-- An evaluation unsettles no block: the block's own evaluation may as well come first, where it changes nothing. -/
theorem blockSettled_evaluated {i j : Instr} {s : State} (h : BlockSettled j s) : BlockSettled j (evaluated i s) := by
  rw [← evaluated_eq_self_iff] at h ⊢
  rw [evaluated_comm, h]

theorem settled_evaluated {i : Instr} {s : State} (h : Settled s) : Settled (evaluated i s) :=
  fun j => blockSettled_evaluated (h j)

/-- Settles O48: the block's outputs are written as its function of its input, and every other block's as before. -/
theorem evaluationSettlesItsBlock : Obligations.EvaluationSettlesItsBlock := by
  unfold Obligations.EvaluationSettlesItsBlock
  intro i s t hexec
  obtain rfl := exec_next_iff.1 hexec
  exact ⟨blockSettled_evaluated_self i s, fun j => blockSettled_evaluated⟩

/-- Settles O49: block by block, settled and left unchanged are the same. -/
theorem settledIsFixedPointOfEveryEvaluation : Obligations.SettledIsFixedPointOfEveryEvaluation := by
  unfold Obligations.SettledIsFixedPointOfEveryEvaluation
  refine fun s => forall_congr' fun i => ?_
  rw [exec_next_iff, eq_comm, evaluated_eq_self_iff]

/-- Settles O44: the first evaluation settles its block, so the second changes nothing. -/
theorem evaluationIsIdempotent : Obligations.EvaluationIsIdempotent := by
  unfold Obligations.EvaluationIsIdempotent
  exact fun i s => ⟨evaluated i s, exec_eq_next i s, exec_next_iff.2 (evaluated_evaluated_self i s).symm⟩

/-- Settles O45: evaluations read inputs only and write their own outputs only. -/
theorem evaluationsCommute : Obligations.EvaluationsCommute := by
  unfold Obligations.EvaluationsCommute
  exact fun i j s => ⟨evaluated i s, evaluated j s, evaluated j (evaluated i s), exec_eq_next i s, exec_eq_next j _,
    exec_eq_next j s, exec_next_iff.2 (evaluated_comm j i s)⟩

/-- A block's function of one configuration takes equal values to equal values. -/
theorem toNat_congr_of_toNat_eq {width width' : Config → Nat}
    (f : (c : Config) → BitVec (width c) → BitVec (width' c)) {c c' : Config} (hc : c = c') {v : BitVec (width c)}
    {v' : BitVec (width c')} (hv : v.toNat = v'.toNat) : (f c v).toNat = (f c' v').toNat := by
  subst hc
  rw [BitVec.eq_of_toNat_eq hv]

/-- Settles O43: what an evaluation delivers is its block's function of the configuration and the block's input. -/
theorem outputsDependOnOwnInputPortOnly : Obligations.OutputsDependOnOwnInputPortOnly := by
  unfold Obligations.OutputsDependOnOwnInputPortOnly
  intro s t s' t' hcfg
  refine ⟨fun hin hs ht => ?encode, fun hin hs ht => ?syndrome, fun hin hs ht => ?locate, fun hin hs ht => ?decode⟩ <;>
    obtain rfl := exec_next_iff.1 hs <;> obtain rfl := exec_next_iff.1 ht
  case encode => exact toNat_congr_of_toNat_eq hammingEncoder hcfg hin
  case syndrome => exact toNat_congr_of_toNat_eq syndromeCalculator hcfg hin
  case locate => exact toNat_congr_of_toNat_eq (fun c v => errorPositionPort c (errorLocator c v)) hcfg hin
  case decode =>
    exact ⟨toNat_congr_of_toNat_eq (fun c v => (hammingDecoder c v).1) hcfg hin,
      toNat_congr_of_toNat_eq (fun c v => errorPositionPort c (hammingDecoder c v).2) hcfg hin⟩

end Sys2Proof.Machine
end

section
/-! SUPPORT. What keeps a codec settled: driven inputs, lines, selections and schedules (70_reset_and_hazards.md
rule R59; 10_state.md rule R11). -/

namespace Sys2Proof.Machine

section

variable {s : State} (h : Settled s)
include h

/-- A driven input changes the driven block's ports, which follow it, and no other. -/
theorem settled_driveEncoder (v : BitVec s.cfg.dl) : Settled (s.driveEncoder v)
  | .encode => rfl
  | .syndrome => h .syndrome
  | .locate => h .locate
  | .decode => h .decode

theorem settled_driveSyndromeCalculator (v : BitVec s.cfg.cl) : Settled (s.driveSyndromeCalculator v)
  | .encode => h .encode
  | .syndrome => rfl
  | .locate => h .locate
  | .decode => h .decode

theorem settled_driveErrorLocator (v : BitVec s.cfg.pl) : Settled (s.driveErrorLocator v)
  | .encode => h .encode
  | .syndrome => h .syndrome
  | .locate => rfl
  | .decode => h .decode

theorem settled_driveHammingDecoder (v : BitVec s.cfg.cl) : Settled (s.driveHammingDecoder v)
  | .encode => h .encode
  | .syndrome => h .syndrome
  | .locate => h .locate
  | .decode => ⟨rfl, rfl⟩

theorem settled_present (l : Line) : Settled (s.present l) := by
  obtain ⟨op, n⟩ := l
  cases op with
  | encode => exact settled_driveEncoder h _
  | syndrome => exact settled_driveSyndromeCalculator h _
  | locate => exact settled_driveErrorLocator h _
  | decode => exact settled_driveHammingDecoder h _

/-- The tag is no port. -/
theorem settled_withOp (t : Tag) : Settled { s with op := t }
  | .encode => h .encode
  | .syndrome => h .syndrome
  | .locate => h .locate
  | .decode => h .decode

theorem settled_withFetchWord (nbits w : Nat) : Settled (s.withFetchWord nbits w) := by
  rw [State.withFetchWord]
  split
  case isTrue => exact settled_withOp h _
  case isFalse => exact h

end

/-- The inversion lemma of `runLine`: a line that answers a state had a value that fits, and every port of that state
follows its input. -/
theorem runLine_next_iff {s t : State} {l : Line} :
    s.runLine l = .next t ↔ l.value < 2 ^ inputWidth s.cfg l.op ∧ t = (s.present l).settle := by
  rw [runLine_eq]
  split
  case isTrue hfits => simp [hfits, eq_comm]
  case isFalse hwide => simp [hwide]

/-- The inversion lemma of a run of lines. -/
theorem runLines_cons_next_iff {s t : State} {l : Line} {rest : List Line} :
    s.runLines (l :: rest) = .next t ↔ ∃ u, s.runLine l = .next u ∧ u.runLines rest = .next t := by
  rw [State.runLines]
  cases s.runLine l <;> simp

/-- The inversion lemma of an event: its codec is there, runs the event's line, and is the one replaced. -/
theorem runEvent_next_iff {all after : List State} {e : Event} :
    runEvent all e = .next after ↔
      ∃ s t, all[e.index]? = some s ∧ s.runLine e.line = .next t ∧ after = all.set e.index t := by
  rw [runEvent]
  cases all[e.index]? with
  | none => simp
  | some s => cases h : s.runLine e.line <;> simp [h, eq_comm]

/-- The inversion lemma of a schedule. -/
theorem runEvents_cons_next_iff {all after : List State} {e : Event} {rest : List Event} :
    runEvents all (e :: rest) = .next after ↔
      ∃ mid, runEvent all e = .next mid ∧ runEvents mid rest = .next after := by
  rw [runEvents]
  cases runEvent all e <;> simp

theorem settled_of_runLine {s t : State} {l : Line} (h : s.runLine l = .next t) : Settled t := by
  obtain ⟨-, rfl⟩ := runLine_next_iff.1 h
  exact settled_settle _

theorem settled_of_runLines {s t : State} {lines : List Line} (hs : Settled s) (h : s.runLines lines = .next t) :
    Settled t := by
  induction lines generalizing s with
  | nil => cases h; exact hs
  | cons l rest ih =>
    obtain ⟨u, hu, ht⟩ := runLines_cons_next_iff.1 h
    exact ih (settled_of_runLine hu) ht

theorem settled_of_runEvent {all after : List State} {e : Event} (hall : ∀ s ∈ all, Settled s)
    (h : runEvent all e = .next after) : ∀ s ∈ after, Settled s := by
  obtain ⟨_, t, -, hline, rfl⟩ := runEvent_next_iff.1 h
  intro s hs
  rcases List.mem_or_eq_of_mem_set hs with hs | rfl
  · exact hall s hs
  · exact settled_of_runLine hline

theorem settled_of_runEvents {all after : List State} {schedule : List Event} (hall : ∀ s ∈ all, Settled s)
    (h : runEvents all schedule = .next after) : ∀ s ∈ after, Settled s := by
  induction schedule generalizing all with
  | nil => cases h; exact hall
  | cons e rest ih =>
    obtain ⟨mid, hmid, hafter⟩ := runEvents_cons_next_iff.1 h
    exact ih (settled_of_runEvent hall hmid) hafter

/-- Settles O54: a step and a line end in `settle`, and everything else changes ports together with their inputs. -/
theorem portsFollowTheirInputsAtEveryMoment : Obligations.PortsFollowTheirInputsAtEveryMoment := by
  unfold Obligations.PortsFollowTheirInputsAtEveryMoment
  refine ⟨fun s t hstep => ?step, fun s i t hs hexec => ?exec,
    fun s => ⟨fun _ => rfl, fun _ => rfl, fun _ => rfl, fun _ => ⟨rfl, rfl⟩⟩, fun s l hs => settled_present hs l,
    fun s nbits w hs => settled_withFetchWord hs nbits w, fun s t lines => settled_of_runLines,
    fun all after schedule => settled_of_runEvents⟩
  case step =>
    rw [step_eq_next] at hstep
    cases hstep
    exact settled_settle s
  case exec =>
    obtain rfl := exec_next_iff.1 hexec
    exact settled_evaluated hs

/-- A line whose value fits answers the presented state with every port following its input; on a settled codec the
presented state has that already. -/
theorem runLine_of_present_eq {s : State} {l : Line} (driven : State) (hfits : l.value < 2 ^ inputWidth s.cfg l.op)
    (hpresent : s.present l = driven) :
    s.runLine l = .next driven.settle ∧ (Settled s → s.runLine l = .next driven) := by
  subst hpresent
  refine ⟨runLine_next_iff.2 ⟨hfits, rfl⟩, fun hs => runLine_next_iff.2 ⟨hfits, ?_⟩⟩
  exact ((settle_eq_self_iff _).2 (settled_present hs l)).symm

/-- Settles O53: the presented line drives its block's input with the vector it stands for, and the ports of the other
blocks follow the inputs they have. -/
theorem operationLineEvaluatesItsBlock : Obligations.OperationLineEvaluatesItsBlock := by
  unfold Obligations.OperationLineEvaluatesItsBlock
  intro s n
  refine ⟨?encode, ?syndrome, ?locate, ?decode, fun i hwide => ?refused⟩
  case encode =>
    rintro v rfl
    exact runLine_of_present_eq (s.driveEncoder v) v.isLt (by simp [State.present])
  case syndrome =>
    rintro v rfl
    exact runLine_of_present_eq (s.driveSyndromeCalculator v) v.isLt (by simp [State.present])
  case locate =>
    rintro v rfl
    exact runLine_of_present_eq (s.driveErrorLocator v) v.isLt (by simp [State.present])
  case decode =>
    rintro v rfl
    exact runLine_of_present_eq (s.driveHammingDecoder v) v.isLt (by simp [State.present])
  case refused => rw [runLine_eq, if_neg (Nat.not_lt.2 hwide)]

end Sys2Proof.Machine
end

section
/-! SUPPORT. Many codecs: interleaved schedules, and schedules that run to their end (20_memory.md rule R15;
60_exceptions.md rule R56). -/

namespace Sys2Proof.Machine

theorem linesOf_cons_self (e : Event) (rest : List Event) :
    linesOf e.index (e :: rest) = e.line :: linesOf e.index rest := by
  simp [linesOf]

theorem linesOf_cons_of_ne {k : Nat} {e : Event} (h : e.index ≠ k) (rest : List Event) :
    linesOf k (e :: rest) = linesOf k rest := by
  simp [linesOf, h]

/-- Settles O46, by induction on the schedule: an event runs its line on its own codec and leaves every other as it
is. -/
theorem interleavingGivesEachInstanceItsOwnResult : Obligations.InterleavingGivesEachInstanceItsOwnResult := by
  unfold Obligations.InterleavingGivesEachInstanceItsOwnResult
  intro schedule
  induction schedule with
  | nil =>
    intro all after h
    cases h
    exact ⟨rfl, fun k s hs => ⟨s, rfl, hs⟩⟩
  | cons e rest ih =>
    intro all after h
    obtain ⟨mid, hmid, hafter⟩ := runEvents_cons_next_iff.1 h
    obtain ⟨r, u, hr, hline, rfl⟩ := runEvent_next_iff.1 hmid
    obtain ⟨hlength, halone⟩ := ih _ after hafter
    refine ⟨hlength.trans List.length_set, fun k s hs => ?_⟩
    by_cases hk : e.index = k
    · subst hk
      obtain rfl : r = s := Option.some.inj (hr.symm.trans hs)
      have hset : (all.set e.index u)[e.index]? = some u :=
        List.getElem?_set_self (List.getElem?_eq_some_iff.1 hr).1
      obtain ⟨t, ht, hresult⟩ := halone e.index u hset
      exact ⟨t, linesOf_cons_self e rest ▸ runLines_cons_next_iff.2 ⟨u, hline, ht⟩, hresult⟩
    · rw [linesOf_cons_of_ne hk]
      exact halone k s ((List.getElem?_set_ne hk).trans hs)

/-- The event names a codec of the list, and its value is that of a vector of the codec's port. -/
def EventFits (all : List State) (e : Event) : Prop :=
  ∃ s, all[e.index]? = some s ∧ e.line.value < 2 ^ inputWidth s.cfg e.line.op

/-- What fits depends on the configurations only, so it stays so when a codec is replaced by one of its
configuration. -/
theorem EventFits.set {all : List State} {e : Event} {k : Nat} {s t : State} (h : EventFits all e)
    (hs : all[k]? = some s) (hcfg : t.cfg = s.cfg) : EventFits (all.set k t) e := by
  obtain ⟨r, hr, hvalue⟩ := h
  by_cases hk : k = e.index
  · subst hk
    obtain rfl : r = s := Option.some.inj (hr.symm.trans hs)
    exact ⟨t, List.getElem?_set_self (List.getElem?_eq_some_iff.1 hr).1, hcfg ▸ hvalue⟩
  · exact ⟨r, (List.getElem?_set_ne hk).trans hr, hvalue⟩

/-- Settles O47, by induction on the schedule: a fitting event completes, and the rest of the schedule fits after it. -/
theorem everyFittingScheduleCompletes : Obligations.EveryFittingScheduleCompletes := by
  unfold Obligations.EveryFittingScheduleCompletes
  intro schedule
  induction schedule with
  | nil => exact fun all _ => ⟨all, rfl⟩
  | cons e rest ih =>
    intro all hfits
    obtain ⟨s, hs, hvalue⟩ := hfits e List.mem_cons_self
    have hline : s.runLine e.line = .next (s.present e.line).settle := runLine_next_iff.2 ⟨hvalue, rfl⟩
    obtain ⟨after, hafter⟩ := ih (all.set e.index (s.present e.line).settle) fun e' he' =>
      EventFits.set (hfits e' (List.mem_cons_of_mem e he')) hs (present_cfg s e.line)
    exact ⟨after, runEvents_cons_next_iff.2 ⟨_, runEvent_next_iff.2 ⟨s, _, hs, hline, rfl⟩, hafter⟩⟩

end Sys2Proof.Machine
end

section
/-! SUPPORT. The tag, the operation table and the step (30_encoding.md rule R22; 60_exceptions.md rule R56). -/

namespace Sys2Proof.Machine

theorem encodeInstr_decodeTag (t : Tag) : encodeInstr (decodeTag t) = t := by revert t; decide

theorem decodeTag_encodeInstr (i : Instr) : decodeTag (encodeInstr i) = i := by cases i <;> decide

theorem wellFormedTagWord_iff {w : Nat} : wellFormedTagWord w = true ↔ w < 4 := decide_eq_true_iff

/-- A word of the table is a number below 4, and selects the operation of its tag. -/
theorem decodeTableWord_eq_some_iff {nbits w : Nat} {i : Instr} :
    decodeTableWord nbits w = some i ↔ w < 4 ∧ BitVec.ofNat 2 w = encodeInstr i := by
  have htag : BitVec.ofNat 2 w = encodeInstr i ↔ decodeTag (BitVec.ofNat 2 w) = i :=
    ⟨fun h => by rw [h, decodeTag_encodeInstr], fun h => by rw [← h, encodeInstr_decodeTag]⟩
  rw [htag]
  by_cases h : w < 4 <;> simp [decodeTableWord, decodeWord, wellFormedTagWord_iff, h]

/-- Selecting a word of the table sets the tag of its operation. -/
theorem withFetchWord_of_decodeTableWord {s : State} {nbits w : Nat} {i : Instr}
    (h : decodeTableWord nbits w = some i) : s.withFetchWord nbits w = { s with op := encodeInstr i } := by
  obtain ⟨hw, htag⟩ := decodeTableWord_eq_some_iff.1 h
  rw [State.withFetchWord, if_pos (wellFormedTagWord_iff.2 hw), htag]

/-- A step is the evaluation the tag decodes to, on settled ports. -/
theorem step_eq_exec {s : State} {i : Instr} (h : decodeTag s.op = i) :
    step s = exec i s.settle ∧ (Settled s → step s = exec i s) := by
  subst h
  exact ⟨rfl, fun hs => by rw [step, (settle_eq_self_iff s).2 hs]⟩

/-- Settles O40: four tags, four operations. -/
theorem tagDecodeAndEncodeAgree : Obligations.TagDecodeAndEncodeAgree := by
  unfold Obligations.TagDecodeAndEncodeAgree
  refine ⟨fun i => ⟨?wellFormed, decodeTag_encodeInstr i, ?word⟩, encodeInstr_decodeTag, fun w hw => ?rejected⟩
  case wellFormed => cases i <;> rfl
  case word =>
    rw [decodeWord, if_pos (wellFormedTagWord_iff.2 (encodeInstr i).isLt), BitVec.ofNat_toNat, BitVec.setWidth_eq,
      decodeTag_encodeInstr]
  case rejected => rw [decodeWord, if_neg (mt wellFormedTagWord_iff.1 (Nat.not_lt.2 hw))]

/-- Settles O41: the words are the tags. -/
theorem operationTableWordsDecode : Obligations.OperationTableWordsDecode := by
  unfold Obligations.OperationTableWordsDecode
  exact ⟨decodeTableWord_eq_some_iff.2 (by decide), decodeTableWord_eq_some_iff.2 (by decide),
    decodeTableWord_eq_some_iff.2 (by decide), decodeTableWord_eq_some_iff.2 (by decide)⟩

/-- Settles O39: selecting a word sets the tag of its operation and no port, and the step runs what the tag decodes
to. -/
theorem stepRunsTheDecodedOperation : Obligations.StepRunsTheDecodedOperation := by
  unfold Obligations.StepRunsTheDecodedOperation
  refine ⟨fun s i => step_eq_exec, fun s nbits w i h => ?_⟩
  rw [withFetchWord_of_decodeTableWord h]
  obtain ⟨hstep, hsettled⟩ := step_eq_exec (s := { s with op := encodeInstr i }) (decodeTag_encodeInstr i)
  exact ⟨decodeTag_encodeInstr i, rfl, hstep, fun hs => hsettled (settled_withOp hs _)⟩

/-- Settles O42: a step answers the state with its ports settled, and settling writes output ports only. -/
theorem stepAnswersNextAndWritesOutputsOnly : Obligations.StepAnswersNextAndWritesOutputsOnly := by
  unfold Obligations.StepAnswersNextAndWritesOutputsOnly
  exact fun s => ⟨_, _, _, _, _, step_eq_next s⟩

end Sys2Proof.Machine
end

section
/-! SUPPORT. A codec just built, `FLIP`, and the source's boundary scenarios (10_state.md rule R11; 30_encoding.md rule
R25; 45_properties.md rules R50, R52). -/

namespace Sys2Proof.Machine

/-- A codec just built shows the functions of its zero inputs. -/
theorem settled_initial (c : Config) : Settled (State.initial c)
  | .encode => rfl
  | .syndrome => rfl
  | .locate => rfl
  | .decode => ⟨rfl, rfl⟩

theorem errorLocator_zero (c : Config) : errorLocator c 0#c.pl = none := errorLocator_eq_none_of_zero BitVec.toNat_zero

theorem dataField_zero (c : Config) : dataField c 0#c.cl = 0#c.dl := dataField_ofNat c 0

theorem hammingDecoder_zero (c : Config) : hammingDecoder c 0#c.cl = (0#c.dl, none) := by
  rw [hammingDecoder_of_none (by rw [syndromeCalculator_zero, errorLocator_zero]), dataField_zero]

/-- Settles O51: settled ports are in reach, and on zero inputs nothing is set and nothing located. -/
theorem initialStateIsSettledAndInReach : Obligations.InitialStateIsSettledAndInReach := by
  unfold Obligations.InitialStateIsSettledAndInReach
  have hinitial : ∀ c, Settled (State.initial c) ∧ OutputsInReach (State.initial c) :=
    fun c => ⟨settled_initial c, outputsInReach_of_settled (settled_initial c)⟩
  obtain ⟨hsettled, hreach⟩ := hinitial Config.reference
  refine ⟨hinitial, hsettled, hreach, rfl, hammingEncoder_toNat_of_zero BitVec.toNat_zero,
    syndromeCalculator_toNat_of_zero BitVec.toNat_zero, ?locate, ?data, ?decode⟩
  case locate =>
    show (errorPositionPort Config.reference (errorLocator Config.reference 0#_)).toNat = 31
    rw [errorLocator_zero]; rfl
  case data =>
    show (hammingDecoder Config.reference 0#_).1.toNat = 0
    rw [hammingDecoder_zero]; rfl
  case decode =>
    show (errorPositionPort Config.reference (hammingDecoder Config.reference 0#_).2).toNat = 31
    rw [hammingDecoder_zero]; rfl

theorem flipBit_of_le {c : Config} (w : BitVec c.cl) {k : Nat} (h : c.cl ≤ k) :
    flipBit c w k = .refused (.noSuchPosition c.cl k) := by
  have hbad : ¬ wellFormedPosition c.cl k = true := by simpa [wellFormedPosition] using h
  rw [flipBit, if_neg hbad]

/-- Settles O52: a flip is what the decoder's correction does at a given position. -/
theorem flipComplementsOnePosition : Obligations.FlipComplementsOnePosition := by
  unfold Obligations.FlipComplementsOnePosition
  exact fun c w k => ⟨fun hk => ⟨_, flipBit_of_lt w hk, fun j => correct_some_getLsbD w k⟩, flipBit_of_le w⟩

theorem dl_of_construct {guard : Bool} {dl : Nat} {c : Config} (h : construct guard dl = .next c) : c.dl = dl := by
  cases hb : constructionError guard dl with
  | none => rw [construct_of_built hb] at h; cases h; rfl
  | some reason => rw [construct_of_error hb] at h; cases h

/-- Without parity bits ENCODE keeps the number. -/
theorem hammingEncoder_ofNat_of_pl_eq_zero {c : Config} (h : c.pl = 0) (n : Nat) :
    hammingEncoder c (BitVec.ofNat c.dl n) = BitVec.ofNat c.cl n := by
  apply BitVec.eq_of_toNat_eq
  rw [hammingEncoder_toNat_of_pl_eq_zero h, BitVec.toNat_ofNat, BitVec.toNat_ofNat, cl_of_pl_eq_zero h]

/-- Without parity bits DECODE keeps the number. -/
theorem hammingDecoder_ofNat_of_pl_eq_zero {c : Config} (h : c.pl = 0) (n : Nat) :
    hammingDecoder c (BitVec.ofNat c.cl n) = (BitVec.ofNat c.dl n, none) := by
  rw [hammingDecoder_of_pl_eq_zero h, dataField_ofNat]

/-- Settles O38: 4 and 1 are powers of two, so the codec is refused under the guard and is the identity without it. -/
theorem boundaryScenariosUnderTheRules : Obligations.BoundaryScenariosUnderTheRules := by
  unfold Obligations.BoundaryScenariosUnderTheRules
  have hfour : IsPowerOfTwo 4 := ⟨2, rfl⟩
  have hone : IsPowerOfTwo 1 := ⟨0, rfl⟩
  refine ⟨construct_of_error (constructionError_of_isPowerOfTwo hfour),
    construct_of_error (constructionError_of_isPowerOfTwo hone), fun c hc => ?four, fun c hc => ?one⟩
  case four =>
    have hdl := dl_of_construct hc
    have hpl : c.pl = 0 := parityLength_eq_zero_iff.2 (hdl.symm ▸ hfour)
    exact ⟨(cl_of_pl_eq_zero hpl).trans hdl, hpl, hammingEncoder_ofNat_of_pl_eq_zero hpl _,
      hammingDecoder_ofNat_of_pl_eq_zero hpl _, hammingDecoder_ofNat_of_pl_eq_zero hpl _⟩
  case one =>
    have hdl := dl_of_construct hc
    have hpl : c.pl = 0 := parityLength_eq_zero_iff.2 (hdl.symm ▸ hone)
    exact ⟨(cl_of_pl_eq_zero hpl).trans hdl, hpl, fun b _ => ⟨hammingEncoder_ofNat_of_pl_eq_zero hpl b,
      hammingDecoder_ofNat_of_pl_eq_zero hpl b⟩⟩

end Sys2Proof.Machine
end
